-- ==== Sys2Proof/Word.lean ====
section
/-! DEFINITION. The block's word types: 8-bit data, 4-bit addresses, the micro-step index (00_scope.md R6). -/

namespace Sys2Proof

/-- The data width: A, B, Output, IR, the bus, the ALU sum and every memory entry (R6). -/
abbrev Byte := BitVec 8

/-- The address, opcode and operand width: PC, MA and the two halves of an instruction byte (R6, R14). -/
abbrev Nibble := BitVec 4

/-- The micro-step index, `0..4` (R13, R29): `Fin 5`, so `+ 1` is the advance modulo 5 of R103. -/
abbrev MicroStep := Fin 5

end Sys2Proof
end

