-- ==== Sys2Proof/Machine/Flags.lean ====
section
/-! DEFINITION. The ALU and the two flag computations (40_datapath.md R74 to R76, 42_cycle_engine.md R92, R94). -/

namespace Sys2Proof.Machine

/-- The 8-bit sum or difference, modulo 256 (R75, R76). -/
def aluSum (a b : Byte) (sub : Bool) : Byte := if sub then a - b else a + b

/-- The ALU's carry: unsigned overflow when adding, borrow (`a < b`) when subtracting (R75, R76). -/
def aluCarry (a b : Byte) (sub : Bool) : Bool :=
  if sub then decide (a.toNat < b.toNat) else decide (256 ≤ a.toNat + b.toNat)

/-- `ALU(a, b, sub)`: the pair of R74. -/
def alu (a b : Byte) (sub : Bool) : Byte × Bool := (aluSum a b sub, aluCarry a b sub)

/-- The Zero flag a flags-in tick computes (R94). -/
def zeroOf (sum : Byte) : Bool := sum == 0

/-- A flag after phases 5 and 7: cleared and computed anew when flags-in is set, else kept (R92, R94). -/
def flagAfter (flagsIn computed old : Bool) : Bool := if flagsIn then computed else old

end Sys2Proof.Machine
end

