-- ==== Sys2Proof/Config.lean ====
section
/-! DEFINITION. What an implementation fixes: the control flags, the control word, and the three parameters the spec
names (00_scope.md R7: OPCODE_MAP, CW_BITS, MICROCODE). There is no free value in this block: the spec leaves no result
undefined (10_state.md R15, 42_cycle_engine.md R106), so no opaque constant stands here. -/

namespace Sys2Proof

/-- The eleven instructions of the catalog (41_microcode.md R80), the keys of OPCODE_MAP. -/
inductive Mnemonic where
  | nop | lda | add | sub | sta | ldi | jmp | jc | jz | out | hlt
  deriving DecidableEq, Repr

/-- The catalog in the source's order (R80). -/
def Mnemonic.all : List Mnemonic := [.nop, .lda, .add, .sub, .sta, .ldi, .jmp, .jc, .jz, .out, .hlt]

/-- The sixteen control flags (30_encoding.md R68). -/
inductive CtrlFlag where
  | hlt | mi | ri | ro | io | ii | ai | ao | eo | su | bi | oi | ce | co | j | fi
  deriving DecidableEq, Repr

/-- The flags in the order of R68. -/
def CtrlFlag.all : List CtrlFlag :=
  [.hlt, .mi, .ri, .ro, .io, .ii, .ai, .ao, .eo, .su, .bi, .oi, .ce, .co, .j, .fi]

/-- A control word by flag name (R67: each flag is one bit, and a word may set any number of them). The engine tests
flags by name (R69), so the word stays named here; its 16-bit number is `cwNumber`. -/
structure ControlWord where
  /-- halt bit -/
  hlt : Bool := false
  /-- memory-address-in -/
  mi : Bool := false
  /-- memory-write -/
  ri : Bool := false
  /-- memory-out -/
  ro : Bool := false
  /-- instruction-out -/
  io : Bool := false
  /-- instruction-in -/
  ii : Bool := false
  /-- accumulator-in -/
  ai : Bool := false
  /-- accumulator-out -/
  ao : Bool := false
  /-- sum-out -/
  eo : Bool := false
  /-- subtract bit -/
  su : Bool := false
  /-- b-register-in -/
  bi : Bool := false
  /-- output-in -/
  oi : Bool := false
  /-- counter-enable -/
  ce : Bool := false
  /-- counter-out -/
  co : Bool := false
  /-- jump bit -/
  j : Bool := false
  /-- flags-in -/
  fi : Bool := false
  deriving DecidableEq, Repr

/-- `cw.NAME` of R9: whether the word sets the named flag. -/
def ControlWord.has (cw : ControlWord) : CtrlFlag → Bool
  | .hlt => cw.hlt | .mi => cw.mi | .ri => cw.ri | .ro => cw.ro
  | .io => cw.io | .ii => cw.ii | .ai => cw.ai | .ao => cw.ao
  | .eo => cw.eo | .su => cw.su | .bi => cw.bi | .oi => cw.oi
  | .ce => cw.ce | .co => cw.co | .j => cw.j | .fi => cw.fi

/-- One row of the microcode table: a control word for each micro-step (R79). -/
abbrev Row := MicroStep → ControlWord

/-- The configuration parameters of R7. The machine runs at their defaults (`Machine.defaultParams`); the engine of
`Machine/Engine.lean` takes them as an argument. -/
structure Params where
  /-- OPCODE_MAP: mnemonic to 4-bit opcode (30_encoding.md R63). -/
  opcodeMap : Mnemonic → Nibble
  /-- CW_BITS: control flag to its bit position in the 16-bit word (30_encoding.md R69). -/
  cwBits : CtrlFlag → Fin 16
  /-- MICROCODE: opcode and micro-step to control word (41_microcode.md R81). -/
  microcode : Nibble → Row

end Sys2Proof
end

