-- ==== Sys2Proof/Syntax.lean ====
section
/-! DEFINITION. The instructions, one constructor per row of spec/opcode_table.json, and the lines of the spec's
assembler syntax. -/

namespace Sys2Proof

/-- Every instruction is one byte, opcode and 4-bit operand (30_encoding.md R59, R60). A constructor keeps all four
operand bits, also where the instruction ignores them (R61), because IR holds the whole byte (10_state.md R28). -/
inductive Instr where
  /-- NOP, opcode 0x0; the operand bits are ignored (45_control.md R116). -/
  | nop (x : Nibble)
  /-- LDA n, opcode 0x1: load from address n (43_data_transfer.md R108). -/
  | lda (n : Nibble)
  /-- ADD n, opcode 0x2: add the byte at address n (44_arithmetic.md R113). -/
  | add (n : Nibble)
  /-- SUB n, opcode 0x3: subtract the byte at address n (44_arithmetic.md R114). -/
  | sub (n : Nibble)
  /-- STA n, opcode 0x4: store to address n (43_data_transfer.md R109). -/
  | sta (n : Nibble)
  /-- LDI n, opcode 0x5: load the immediate n (43_data_transfer.md R110). -/
  | ldi (n : Nibble)
  /-- JMP n, opcode 0x6: jump to n (45_control.md R117). -/
  | jmp (n : Nibble)
  /-- JC n, opcode 0x7: jump to n if Carry (45_control.md R118). -/
  | jc (n : Nibble)
  /-- JZ n, opcode 0x8: jump to n if Zero (45_control.md R119). -/
  | jz (n : Nibble)
  /-- Unassigned opcode 0x9, a no-op (45_control.md R121). -/
  | unassigned9 (x : Nibble)
  /-- Unassigned opcode 0xA, a no-op (R121). -/
  | unassignedA (x : Nibble)
  /-- Unassigned opcode 0xB, a no-op (R121). -/
  | unassignedB (x : Nibble)
  /-- Unassigned opcode 0xC, a no-op (R121). -/
  | unassignedC (x : Nibble)
  /-- Unassigned opcode 0xD, a no-op (R121). -/
  | unassignedD (x : Nibble)
  /-- OUT, opcode 0xE; the operand bits are ignored (43_data_transfer.md R111). -/
  | out (x : Nibble)
  /-- HLT, opcode 0xF; the operand bits are ignored (45_control.md R120). -/
  | hlt (x : Nibble)
  deriving DecidableEq, Repr

/-- The operand field `n` (or the ignored bits `x`) of an instruction (R60). -/
def Instr.operand : Instr → Nibble
  | .nop x => x | .lda n => n | .add n => n | .sub n => n | .sta n => n | .ldi n => n
  | .jmp n => n | .jc n => n | .jz n => n
  | .unassigned9 x => x | .unassignedA x => x | .unassignedB x => x | .unassignedC x => x | .unassignedD x => x
  | .out x => x | .hlt x => x

/-- A line of the spec's assembler syntax (30_encoding.md R71, R72): a mnemonic with an optional operand, or `DB v`.
The numbers are as written, so a line can be ill-formed. -/
inductive SourceLine where
  | ins (m : Mnemonic) (operand : Option Nat)
  | db (v : Nat)
  deriving DecidableEq, Repr

end Sys2Proof
end

