-- ==== Sys2Proof/WellFormed.lean ====
section
/-! DEFINITION. The well-formedness checks. An `Instr` needs none: every opcode and every operand value is valid
(30_encoding.md R65), and the operand is a 4-bit type by construction. What can be ill-formed is what comes from
outside: a control word or table given as a parameter, the maps, a memory image, a line of assembler. -/

namespace Sys2Proof

/-- Every instruction is well-formed (R65: no encoding is illegal). -/
def Instr.wf (_ : Instr) : Bool := true

/-- The bus-source flags of a word, in the order of 42_cycle_engine.md R95. -/
def ControlWord.sources (cw : ControlWord) : List Bool := [cw.ro, cw.io, cw.ao, cw.eo, cw.co]

/-- At most one bus source in the word (30_encoding.md R70). -/
def ControlWord.singleSource (cw : ControlWord) : Bool := cw.sources.count true ≤ 1

/-- The sixteen opcode values. -/
def allOpcodes : List Nibble := (List.range 16).map (BitVec.ofNat 4)

/-- The five micro-steps. -/
def allSteps : List MicroStep := [0, 1, 2, 3, 4]

/-- No word of the parameter's table sets more than one bus source (R70: a table that does is refused). -/
def Params.tableOk (P : Params) : Bool :=
  allOpcodes.all fun opc => allSteps.all fun st => (P.microcode opc st).singleSource

/-- Whether a map given on a listed domain takes no value twice. -/
def noRepeats {α β : Type} [DecidableEq β] (f : α → β) (dom : List α) : Bool := decide (dom.map f).Nodup

/-- Two mnemonics never share an opcode, two control flags never share a bit: the maps 92_eei_decisions.md D2 calls
injective. No operation of the machine asks for it (DESIGN CHOICE, log entry 21); statements may take it as a
hypothesis. -/
def Params.mapsOk (P : Params) : Bool :=
  noRepeats P.opcodeMap Mnemonic.all && noRepeats P.cwBits CtrlFlag.all

/-- A memory image is exactly 16 bytes (70_reset_and_hazards.md R136). -/
def imageOk (bytes : List Byte) : Bool := bytes.length == 16

/-- An operand is 0..15, a data byte 0..255 (30_encoding.md R71, R72). -/
def SourceLine.wf : SourceLine → Bool
  | .ins _ none => true
  | .ins _ (some n) => n < 16
  | .db v => v < 256

/-- A program has at most 16 entries, each line well-formed (R72). -/
def programWf (ls : List SourceLine) : Bool := ls.length ≤ 16 && ls.all SourceLine.wf

end Sys2Proof
end

