-- ==== Sys2Proof/Decode.lean ====
section
/-! DEFINITION. The instruction byte: its fields, the default opcode map, the decoder (total on all 256 byte values),
the encoder, and the assembler of R71 and R72. -/

namespace Sys2Proof

/-- `opcode = IR[7:4]` (30_encoding.md R60). -/
def opcodeField (b : Byte) : Nibble := b.extractLsb' 4 4

/-- `operand = IR[3:0]` (R60). -/
def operandField (b : Byte) : Nibble := b.extractLsb' 0 4

/-- `byte = opcode<<4 | operand` (R60). -/
def packByte (opcode operand : Nibble) : Byte := (opcode.setWidth 8 <<< 4) ||| operand.setWidth 8

/-- The default of parameter OPCODE_MAP (R63). Log entry 4. -/
def defaultOpcodeMap : Mnemonic → Nibble
  | .nop => 0x0 | .lda => 0x1 | .add => 0x2 | .sub => 0x3 | .sta => 0x4 | .ldi => 0x5
  | .jmp => 0x6 | .jc => 0x7 | .jz => 0x8 | .out => 0xE | .hlt => 0xF

/-- The opcode of each instruction: R63's map, and the five unassigned values. -/
def Instr.opcode : Instr → Nibble
  | .nop _ => defaultOpcodeMap .nop
  | .lda _ => defaultOpcodeMap .lda
  | .add _ => defaultOpcodeMap .add
  | .sub _ => defaultOpcodeMap .sub
  | .sta _ => defaultOpcodeMap .sta
  | .ldi _ => defaultOpcodeMap .ldi
  | .jmp _ => defaultOpcodeMap .jmp
  | .jc _ => defaultOpcodeMap .jc
  | .jz _ => defaultOpcodeMap .jz
  | .unassigned9 _ => 0x9
  | .unassignedA _ => 0xA
  | .unassignedB _ => 0xB
  | .unassignedC _ => 0xC
  | .unassignedD _ => 0xD
  | .out _ => defaultOpcodeMap .out
  | .hlt _ => defaultOpcodeMap .hlt

/-- The opcode map read as the decoder's table: entry `k` builds the instruction with opcode `k` (R63). -/
def decoderRows : Vector (Nibble → Instr) 16 :=
  #v[.nop, .lda, .add, .sub, .sta, .ldi, .jmp, .jc, .jz,
     .unassigned9, .unassignedA, .unassignedB, .unassignedC, .unassignedD, .out, .hlt]

/-- The decoder of one byte, total: no encoding is illegal (R65). -/
def decodeByte (b : Byte) : Instr := decoderRows[(opcodeField b).toNat] (operandField b)

/-- Why a list of bytes gives no instruction. -/
inductive DecodeError where
  /-- There is no byte to decode. Safe. -/
  | noByte
  deriving DecidableEq, Repr

/-- The decoder on bytes: one instruction is one byte (R59), the rest is handed back. -/
def decode : List Byte → Except DecodeError (Instr × List Byte)
  | [] => .error .noByte
  | b :: rest => .ok (decodeByte b, rest)

/-- The encoder: the byte of an instruction (R60, R63). -/
def encode (i : Instr) : Byte := packByte i.opcode i.operand

/-- The bytes of an instruction whose `nbits` bits are `w`, as memory holds them: one entry, for every instruction is
one byte (R59); a longer word is no instruction of this block. Log entry 18. -/
def wordBytes (nbits w : Nat) : List Byte :=
  if nbits ≤ 8 then [BitVec.ofNat 8 (w % 2 ^ nbits)] else []

/-- The instruction the decoder reads from a word numbered as spec/opcode_table.json numbers it. -/
def decodeTableWord (nbits w : Nat) : Option Instr :=
  match decode (wordBytes nbits w) with
  | .ok (i, _) => some i
  | .error _ => none

/-- Why the assembler refuses a program (R71, R72). -/
inductive AsmError where
  /-- An operand outside 0..15, or a data byte outside 0..255. Safe. -/
  | valueOutOfRange
  /-- More than 16 lines. Safe. -/
  | tooManyLines
  deriving DecidableEq, Repr

/-- One line to its byte; an omitted operand is 0 (R71, R72). Log entry 16. -/
def assembleLine (l : SourceLine) : Except AsmError Byte :=
  if l.wf then
    match l with
    | .ins m n => .ok (packByte (defaultOpcodeMap m) (BitVec.ofNat 4 (n.getD 0)))
    | .db v => .ok (BitVec.ofNat 8 v)
  else .error .valueOutOfRange

/-- The lines' bytes, in order. -/
def assembleLines : List SourceLine → Except AsmError (List Byte)
  | [] => .ok []
  | l :: ls =>
    match assembleLine l, assembleLines ls with
    | .ok b, .ok bs => .ok (b :: bs)
    | .error e, _ => .error e
    | _, .error e => .error e

/-- A program to its 16-byte image: successive lines at successive addresses from 0, unused entries 0 (R72). -/
def assemble (ls : List SourceLine) : Except AsmError (List Byte) :=
  if ls.length ≤ 16 then
    match assembleLines ls with
    | .ok bs => .ok (bs ++ List.replicate (16 - bs.length) 0)
    | .error e => .error e
  else .error .tooManyLines

end Sys2Proof
end

