-- ==== Sys2Proof/Machine/Microcode.lean ====
section
/-! DEFINITION. The microcode ROM (41_microcode.md R81), the control word's bit positions (30_encoding.md R69), and the
default parameters. -/

namespace Sys2Proof.Machine

/-- The default of parameter CW_BITS (R69). Log entry 5. -/
def defaultCwBits : CtrlFlag → Fin 16
  | .hlt => 15 | .mi => 14 | .ri => 13 | .ro => 12 | .io => 11 | .ii => 10 | .ai => 9 | .ao => 8
  | .eo => 7 | .su => 6 | .bi => 5 | .oi => 4 | .ce => 3 | .co => 2 | .j => 1 | .fi => 0

/-- A control word as the 16-bit number the observer reads (10_state.md R31). DESIGN CHOICE, log entry 21: under positions
that give two flags one bit, that bit is set if either flag is. -/
def cwNumber (bits : CtrlFlag → Fin 16) (cw : ControlWord) : BitVec 16 :=
  CtrlFlag.all.foldl (fun w f => if cw.has f then w ||| (1#16 <<< (bits f).val) else w) 0

/-- Fetch step 0, `CO MI`: MA takes PC (R82). -/
def fetchAddressWord : ControlWord := { co := true, mi := true }

/-- Fetch step 1, `RO II CE`: IR takes the byte at MA, PC advances (R82). -/
def fetchLoadWord : ControlWord := { ro := true, ii := true, ce := true }

/-- A row from its words of steps 2, 3 and 4: every row begins with the two fetch words (R82). -/
def rowOf (w2 w3 w4 : ControlWord) : Row
  | 0 => fetchAddressWord
  | 1 => fetchLoadWord
  | 2 => w2
  | 3 => w3
  | 4 => w4

/-- NOP and every unassigned opcode: the fetch words only (R81). -/
def rowFetchOnly : Row := rowOf {} {} {}
/-- LDA (R81): `IO MI`, `RO AI`, `0`. -/
def rowLda : Row := rowOf { io := true, mi := true } { ro := true, ai := true } {}
/-- ADD (R81): `IO MI`, `RO BI`, `EO AI FI`. -/
def rowAdd : Row := rowOf { io := true, mi := true } { ro := true, bi := true } { eo := true, ai := true, fi := true }
/-- SUB (R81): `IO MI`, `RO BI`, `EO AI SU FI`. -/
def rowSub : Row :=
  rowOf { io := true, mi := true } { ro := true, bi := true } { eo := true, ai := true, su := true, fi := true }
/-- STA (R81): `IO MI`, `AO RI`, `0`. -/
def rowSta : Row := rowOf { io := true, mi := true } { ao := true, ri := true } {}
/-- LDI (R81): `IO AI`, `0`, `0`. -/
def rowLdi : Row := rowOf { io := true, ai := true } {} {}
/-- JMP (R81): `IO J`, `0`, `0`. -/
def rowJmp : Row := rowOf { io := true, j := true } {} {}
/-- JC (R81, R86): the words of JMP; the condition is the engine's. -/
def rowJc : Row := rowOf { io := true, j := true } {} {}
/-- JZ (R81, R86): the words of JMP; the condition is the engine's. -/
def rowJz : Row := rowOf { io := true, j := true } {} {}
/-- OUT (R81): `AO OI`, `0`, `0`. -/
def rowOut : Row := rowOf { ao := true, oi := true } {} {}
/-- HLT (R81): `HLT`, `0`, `0`. -/
def rowHlt : Row := rowOf { hlt := true } {} {}

/-- The row of each catalog entry. -/
def rowOfMnemonic : Mnemonic → Row
  | .nop => rowFetchOnly | .lda => rowLda | .add => rowAdd | .sub => rowSub | .sta => rowSta | .ldi => rowLdi
  | .jmp => rowJmp | .jc => rowJc | .jz => rowJz | .out => rowOut | .hlt => rowHlt

/-- The mnemonic a map gives an opcode value, if any. DESIGN CHOICE, log entry 21: under a map that gives two mnemonics
one value, the first in catalog order has it. -/
def mnemonicAt (map : Mnemonic → Nibble) (opc : Nibble) : Option Mnemonic := Mnemonic.all.find? (map · == opc)

/-- The microcode table under an opcode map: each mnemonic's row at its opcode, and fetch only at every value the map
leaves unassigned (R80, R81). -/
def microcodeFor (map : Mnemonic → Nibble) (opc : Nibble) : Row :=
  match mnemonicAt map opc with
  | some m => rowOfMnemonic m
  | none => rowFetchOnly

/-- The default of parameter MICROCODE (R81). Log entry 6. -/
def defaultMicrocode : Nibble → Row := microcodeFor defaultOpcodeMap

/-- The default parameters (00_scope.md R7). -/
def defaultParams : Params :=
  { opcodeMap := defaultOpcodeMap, cwBits := defaultCwBits, microcode := defaultMicrocode }

end Sys2Proof.Machine
end

