-- ==== Sys2Proof/Machine/Operands.lean ====
section
/-! DEFINITION. The bit-width utility and the operand (40_datapath.md R73, 30_encoding.md R61). -/

namespace Sys2Proof.Machine

/-- `trunc4`: the low four bits, as a 4-bit register takes them (R73, 00_scope.md R10). -/
def trunc4 (x : Byte) : Nibble := x.setWidth 4

/-- `zext_8` of a 4-bit value (00_scope.md R9). -/
def zext8 (n : Nibble) : Byte := n.setWidth 8

/-- The operand as instruction-out drives it: the low four bits of IR, zero-extended; never sign-extended, scaled or
shifted (R61). -/
def operandByte (ir : Byte) : Byte := zext8 (operandField ir)

end Sys2Proof.Machine
end

