-- ==== Sys2Proof/Machine/State.lean ====
section
/-! DEFINITION. The machine's state (10_state.md R13), its value at reset, the observer's view, and the reasons a
request can stop. -/

namespace Sys2Proof.Machine

/-- Memory as (address, byte) cells: addresses strictly rising and below 16, no cell equal to what an unlisted address
reads as (`Memory.wf`). Plain data for the 16 × 8-bit array of R33. -/
abbrev Memory := List Host.Cell

/-- The state tuple of R13, and nothing else (R37: there is no other hidden state). -/
structure State where
  /-- Register A, the accumulator (R16, R17). -/
  a : Byte
  /-- Register B, the second ALU operand (R16, R18). -/
  b : Byte
  /-- The Output register (R16, R19). -/
  out : Byte
  /-- The Instruction register (R28). -/
  ir : Byte
  /-- The program counter (R20). -/
  pc : Nibble
  /-- The memory-address register (R32). -/
  ma : Nibble
  /-- The Carry flag (R23). -/
  carry : Bool
  /-- The Zero flag (R23). -/
  zero : Bool
  /-- The memory, 16 entries of 8 bits (R33). -/
  mem : Memory
  /-- The micro-step counter (R29). -/
  step : MicroStep
  /-- The halted latch (R30). -/
  halted : Bool
  /-- The last completed tick's bus value, for the observer (R34). -/
  bus : Byte
  /-- The last completed tick's ALU sum, for the observer (R35). -/
  sum : Byte
  /-- The last completed tick's control word as a number, for the observer (R31). -/
  cw : BitVec 16
  deriving DecidableEq, Repr

/-- The machine right after setup with the image of sixteen zero bytes (R39, 70_reset_and_hazards.md R135). The image
is the loader's to give; the zero image here is log entry 3. -/
def State.reset : State :=
  { a := 0, b := 0, out := 0, ir := 0, pc := 0, ma := 0, carry := false, zero := false, mem := [],
    step := 0, halted := false, bus := 0, sum := 0, cw := 0 }

/-- The observer's read-only view of one completed tick (R36): IR and MA are not in it, and `step` is the step of the
tick just completed. -/
structure View where
  cw : BitVec 16
  bus : Byte
  a : Byte
  b : Byte
  sum : Byte
  out : Byte
  carry : Bool
  zero : Bool
  mem : Memory
  pc : Nibble
  step : MicroStep
  deriving DecidableEq, Repr

/-- The faults of the machine: none. No operation of the block can fail (60_exceptions.md R122, 42_cycle_engine.md
R106), so no constructor stands here and nothing raises a fault. -/
inductive Fault where
  deriving DecidableEq, Repr

/-- Why a request is refused. No instruction is refused: the last two answer the host's configuration and setup. -/
inductive Refusal where
  /-- An instruction that has no meaning yet; raised by an arm of `exec` only, and by none of them now. Safe. -/
  | notModelled (mnemonic : String)
  /-- `configure`: a MICROCODE table holds a word with more than one bus source (30_encoding.md R70). Safe. -/
  | multiSourceWord
  /-- `setupRequest`: the image is not 16 bytes (70_reset_and_hazards.md R136). Safe. -/
  | imageLength
  deriving DecidableEq, Repr

/-- The outcome of a step of this machine. -/
abbrev Result := Host.Outcome State Fault Refusal

end Sys2Proof.Machine
end

