-- ==== Sys2Proof/Machine/Ops.lean ====
section
/-! DEFINITION. The operations over memory and the phases of the tick (20_memory.md, 42_cycle_engine.md). The block has
no exceptions and no interrupts (60_exceptions.md R122, R123, R125, R126), so there is no exception entry and no return
from one here; its only terminal event is the halt, `State.halt`. -/

namespace Sys2Proof.Machine

/-- What an address no cell lists reads as. Log entry 3. -/
def unlistedByte : Byte := 0

/-- The canonical form from address `lo` on: rising addresses below 16, no cell equal to `unlistedByte`. -/
def Memory.wfFrom (lo : Nat) : Memory → Bool
  | [] => true
  | (k, v) :: rest => decide (lo ≤ k) && decide (k < 16) && (v != unlistedByte) && Memory.wfFrom (k + 1) rest

/-- The canonical form of memory. -/
def Memory.wf (m : Memory) : Bool := Memory.wfFrom 0 m

/-- `MemRead(addr, 1)` (20_memory.md R42, R46): every 4-bit address names an entry. -/
def memRead (m : Memory) (a : Nibble) : Byte :=
  match m with
  | [] => unlistedByte
  | (k, v) :: rest => if k = a.toNat then v else memRead rest a

/-- The cells with those at address `k` taken out. -/
def memDrop (k : Nat) : Memory → Memory
  | [] => []
  | (k', v) :: rest => if k' = k then memDrop k rest else (k', v) :: memDrop k rest

/-- The cells with one put in before the first higher address. -/
def memInsert (k : Nat) (v : Byte) : Memory → Memory
  | [] => [(k, v)]
  | (k', v') :: rest => if k' < k then (k', v') :: memInsert k v rest else (k, v) :: (k', v') :: rest

/-- `MemWrite(addr, 1, v)` (R42, R47): only the addressed entry changes. -/
def memWrite (m : Memory) (a : Nibble) (v : Byte) : Memory :=
  if v = unlistedByte then memDrop a.toNat m else memInsert a.toNat v (memDrop a.toNat m)

/-- The halting tick's whole effect: the latch, and nothing else (42_cycle_engine.md R90, 60_exceptions.md R124). -/
def State.halt (s : State) : State := { s with halted := true }

/-- The state with a byte in IR. -/
def State.setIr (s : State) (byte : Byte) : State := { s with ir := byte }

/-- Phase 4: PC after counter-enable, wrapping from 15 to 0 (R91). -/
def pcCounted (cw : ControlWord) (s : State) : Nibble := if cw.ce then s.pc + 1 else s.pc

/-- Phase 6: the tick's ALU sum, from A and B before the tick's sinks (R93, 40_datapath.md R78). -/
def tickSum (cw : ControlWord) (s : State) : Byte := (alu s.a s.b cw.su).1

/-- Phases 5 and 7: Carry (R92, R94). -/
def tickCarry (cw : ControlWord) (s : State) : Bool := flagAfter cw.fi (alu s.a s.b cw.su).2 s.carry

/-- Phases 5 and 7: Zero (R92, R94). -/
def tickZero (cw : ControlWord) (s : State) : Bool := flagAfter cw.fi (zeroOf (tickSum cw s)) s.zero

/-- Phases 1 and 8: the bus starts at 0 and each source overwrites it in the order RO, IO, AO, EO, CO (R88, R95).
`memOut` is the byte memory-out delivers; counter-out drives PC as phase 4 left it (R96). -/
def tickBus (cw : ControlWord) (memOut : Byte) (s : State) : Byte :=
  let bus0 : Byte := 0
  let bus1 := if cw.ro then memOut else bus0
  let bus2 := if cw.io then operandByte s.ir else bus1
  let bus3 := if cw.ao then s.a else bus2
  let bus4 := if cw.eo then tickSum cw s else bus3
  if cw.co then zext8 (pcCounted cw s) else bus4

/-- Phase 9, memory-address-in (R97). -/
def tickMa (cw : ControlWord) (bus : Byte) (s : State) : Nibble := if cw.mi then trunc4 bus else s.ma

/-- Phase 9, memory-write: it writes at MA as memory-address-in of the same word left it (R98). -/
def tickMem (cw : ControlWord) (bus : Byte) (s : State) : Memory :=
  if cw.ri then memWrite s.mem (tickMa cw bus s) bus else s.mem

/-- Phase 10: whether the jump is taken. The two conditional jumps are told by opcode identity and test the flag as
phase 7 left it (R99, R100). DESIGN CHOICE, log entry 23: under a map that gives JC and JZ one opcode the two lines of
R100 jump on either flag and the chain of R104 tests Carry only; the model follows R100. Elsewhere the two agree. -/
def jumpTaken (P : Params) (opc : Nibble) (cw : ControlWord) (s : State) : Bool :=
  cw.j && (if opc = P.opcodeMap .jc ∨ opc = P.opcodeMap .jz then
             (opc == P.opcodeMap .jc && tickCarry cw s) || (opc == P.opcodeMap .jz && tickZero cw s)
           else true)

/-- Phases 3 to 12 for a control word already looked up, with `memOut` the byte memory-out delivers and `opc` the
opcode of phase 2 (R90 to R104). -/
def tickDelivering (P : Params) (opc : Nibble) (cw : ControlWord) (memOut : Byte) (s : State) : State :=
  if cw.hlt then s.halt
  else
    let bus := tickBus cw memOut s
    { a := if cw.ai then bus else s.a
      b := if cw.bi then bus else s.b
      out := if cw.oi then bus else s.out
      ir := if cw.ii then bus else s.ir
      pc := if jumpTaken P opc cw s then trunc4 bus else pcCounted cw s
      ma := tickMa cw bus s
      carry := tickCarry cw s
      zero := tickZero cw s
      mem := tickMem cw bus s
      step := s.step + 1
      halted := s.halted
      bus := bus
      sum := tickSum cw s
      cw := cwNumber P.cwBits cw }

/-- Phases 3 to 12: memory-out delivers the entry at MA as it stands before the tick's sinks (R95, R96). -/
def tickWord (P : Params) (opc : Nibble) (cw : ControlWord) (s : State) : State :=
  tickDelivering P opc cw (memRead s.mem s.ma) s

/-- The byte of the instruction under way or about to be fetched: at step 0 the entry at PC, at step 1 the entry at MA,
from step 2 on the byte in IR (10_state.md R21, 41_microcode.md R82). -/
def currentByte (s : State) : Byte :=
  if s.step = 0 then memRead s.mem s.pc else if s.step = 1 then memRead s.mem s.ma else s.ir

/-- The fetch ticks still due, with `byte` the byte that fetch step 1 delivers (R82); past the fetch, IR holds it. -/
def fetchInto (byte : Byte) (s : State) : State :=
  let load (t : State) : State := tickDelivering defaultParams (opcodeField t.ir) fetchLoadWord byte t
  if s.step = 0 then load (tickWord defaultParams (opcodeField s.ir) fetchAddressWord s)
  else if s.step = 1 then load s
  else s.setIr byte

/-- One tick of a row: no tick while halted (R87). -/
def rowTick (opc : Nibble) (row : Row) (s : State) : State :=
  if s.halted then s else tickWord defaultParams opc (row s.step) s

/-- A number of ticks of a row. -/
def rowTicks (opc : Nibble) (row : Row) : Nat → State → State
  | 0, s => s
  | n + 1, s => rowTicks opc row n (rowTick opc row s)

/-- Run an instruction, given its opcode, its row and its byte: the fetch ticks still due, then the row's words to the
end of step 4, or to the halt (43_data_transfer.md R107, 70_reset_and_hazards.md R147). A halted engine takes no tick
(R87, R141). Log entries 1 and 2. -/
def execRow (opc : Nibble) (row : Row) (byte : Byte) (s : State) : Result :=
  if s.halted then .next s
  else .next (rowTicks opc row (5 - (fetchInto byte s).step.val) (fetchInto byte s))

end Sys2Proof.Machine
end

