-- ==== Sys2Proof/Machine/Arithmetic.lean ====
section
/-! DEFINITION. ADD and SUB (44_arithmetic.md R112 to R114). -/

namespace Sys2Proof.Machine

/-- ADD n: B takes the entry at n, A and the flags the sum (R113). -/
def execAdd (n : Nibble) (s : State) : Result := execRow (Instr.add n).opcode rowAdd (encode (.add n)) s

/-- SUB n: B takes the entry at n, A and the flags the difference (R114). -/
def execSub (n : Nibble) (s : State) : Result := execRow (Instr.sub n).opcode rowSub (encode (.sub n)) s

end Sys2Proof.Machine
end

