-- ==== Sys2Proof/Machine/Control.lean ====
section
/-! DEFINITION. NOP, the jumps, HLT and the unassigned opcodes (45_control.md R116 to R121). -/

namespace Sys2Proof.Machine

/-- NOP: fetch, then three ticks with no action (R116). -/
def execNop (x : Nibble) (s : State) : Result := execRow (Instr.nop x).opcode rowFetchOnly (encode (.nop x)) s

/-- JMP n: PC takes n (R117). -/
def execJmp (n : Nibble) (s : State) : Result := execRow (Instr.jmp n).opcode rowJmp (encode (.jmp n)) s

/-- JC n: PC takes n if Carry is set (R118). -/
def execJc (n : Nibble) (s : State) : Result := execRow (Instr.jc n).opcode rowJc (encode (.jc n)) s

/-- JZ n: PC takes n if Zero is set (R119). -/
def execJz (n : Nibble) (s : State) : Result := execRow (Instr.jz n).opcode rowJz (encode (.jz n)) s

/-- HLT: the engine stops on the third tick (R120). -/
def execHlt (x : Nibble) (s : State) : Result := execRow (Instr.hlt x).opcode rowHlt (encode (.hlt x)) s

/-- Opcode 0x9, unassigned: as NOP (R121). -/
def execUnassigned9 (x : Nibble) (s : State) : Result :=
  execRow (Instr.unassigned9 x).opcode rowFetchOnly (encode (.unassigned9 x)) s

/-- Opcode 0xA, unassigned: as NOP (R121). -/
def execUnassignedA (x : Nibble) (s : State) : Result :=
  execRow (Instr.unassignedA x).opcode rowFetchOnly (encode (.unassignedA x)) s

/-- Opcode 0xB, unassigned: as NOP (R121). -/
def execUnassignedB (x : Nibble) (s : State) : Result :=
  execRow (Instr.unassignedB x).opcode rowFetchOnly (encode (.unassignedB x)) s

/-- Opcode 0xC, unassigned: as NOP (R121). -/
def execUnassignedC (x : Nibble) (s : State) : Result :=
  execRow (Instr.unassignedC x).opcode rowFetchOnly (encode (.unassignedC x)) s

/-- Opcode 0xD, unassigned: as NOP (R121). -/
def execUnassignedD (x : Nibble) (s : State) : Result :=
  execRow (Instr.unassignedD x).opcode rowFetchOnly (encode (.unassignedD x)) s

end Sys2Proof.Machine
end

