-- ==== Sys2Proof/Machine/DataTransfer.lean ====
section
/-! DEFINITION. LDA, STA, LDI, OUT (43_data_transfer.md R108 to R111). -/

namespace Sys2Proof.Machine

/-- LDA n: A takes the entry at n (R108). -/
def execLda (n : Nibble) (s : State) : Result := execRow (Instr.lda n).opcode rowLda (encode (.lda n)) s

/-- STA n: the entry at n takes A (R109). -/
def execSta (n : Nibble) (s : State) : Result := execRow (Instr.sta n).opcode rowSta (encode (.sta n)) s

/-- LDI n: A takes n, zero-extended (R110). -/
def execLdi (n : Nibble) (s : State) : Result := execRow (Instr.ldi n).opcode rowLdi (encode (.ldi n)) s

/-- OUT: the Output register takes A (R111). -/
def execOut (x : Nibble) (s : State) : Result := execRow (Instr.out x).opcode rowOut (encode (.out x)) s

end Sys2Proof.Machine
end

