-- ==== Sys2Proof/Machine/Dispatch.lean ====
section
/-! DEFINITION. One arm per constructor of Instr, each one direct call of its meaning. -/

namespace Sys2Proof.Machine

/-- The meaning of each instruction. -/
def exec (i : Instr) (s : State) : Host.Outcome State Fault Refusal :=
  match i with
  | .nop x => Sys2Proof.Machine.execNop x s
  | .lda n => Sys2Proof.Machine.execLda n s
  | .add n => Sys2Proof.Machine.execAdd n s
  | .sub n => Sys2Proof.Machine.execSub n s
  | .sta n => Sys2Proof.Machine.execSta n s
  | .ldi n => Sys2Proof.Machine.execLdi n s
  | .jmp n => Sys2Proof.Machine.execJmp n s
  | .jc n => Sys2Proof.Machine.execJc n s
  | .jz n => Sys2Proof.Machine.execJz n s
  | .unassigned9 x => Sys2Proof.Machine.execUnassigned9 x s
  | .unassignedA x => Sys2Proof.Machine.execUnassignedA x s
  | .unassignedB x => Sys2Proof.Machine.execUnassignedB x s
  | .unassignedC x => Sys2Proof.Machine.execUnassignedC x s
  | .unassignedD x => Sys2Proof.Machine.execUnassignedD x s
  | .out x => Sys2Proof.Machine.execOut x s
  | .hlt x => Sys2Proof.Machine.execHlt x s

end Sys2Proof.Machine
end

