-- ==== Sys2Proof/Machine/Step.lean ====
section
/-! DEFINITION. One step of the machine: one instruction, from wherever its ticks stand to the next instruction
boundary or the halt (log entry 1). -/

namespace Sys2Proof.Machine

/-- Decode the byte of the instruction under way or about to be fetched, and run it to its end. -/
def step (s : State) : Host.Outcome State Fault Refusal := exec (decodeByte (currentByte s)) s

/-- `s` about to fetch the word: running, at micro-step 0, the word's byte in the entry at PC (log entry 10). -/
def State.withFetchWord (s : State) (nbits w : Nat) : State :=
  { s with mem := (wordBytes nbits w).foldl (fun m b => memWrite m s.pc b) s.mem, step := 0, halted := false }

end Sys2Proof.Machine
end

