-- ==== Sys2Proof/Machine/Engine.lean ====
section
/-! DEFINITION. The cycle engine tick by tick (42_cycle_engine.md), the host's operations (70_reset_and_hazards.md R141)
and the observer (10_state.md R36). The tick here looks its word up in the microcode table by the opcode in IR; `step`
runs the same ticks an instruction at a time. -/

namespace Sys2Proof.Machine

/-- The control word of phase 2 (R89). -/
def lookup (P : Params) (s : State) : ControlWord := P.microcode (opcodeField s.ir) s.step

/-- One tick under given parameters: phases 1 to 12 if the engine is not halted, no effect if it is (R87, R104, R141). -/
def tickWith (P : Params) (s : State) : State :=
  if s.halted then s else tickWord P (opcodeField s.ir) (lookup P s) s

/-- One tick at the default parameters. -/
def tick (s : State) : State := tickWith defaultParams s

/-- A number of ticks under given parameters (R105). -/
def ticksWith (P : Params) : Nat → State → State
  | 0, s => s
  | n + 1, s => ticksWith P n (tickWith P s)

/-- A number of ticks at the default parameters. -/
def ticks (n : Nat) (s : State) : State := ticksWith defaultParams n s

/-- The cells of an image whose first byte is entry `k`. -/
def imageMemory (k : Nat) : List Byte → Memory
  | [] => []
  | b :: rest => if b = unlistedByte then imageMemory (k + 1) rest else (k, b) :: imageMemory (k + 1) rest

/-- Setup, the block's only reset: the image in memory and zero everywhere else, whatever state there was before
(R135, R137). -/
def setup (image : Vector Byte 16) : State := { State.reset with mem := imageMemory 0 image.toList }

/-- Setup as the host asks for it: an image that is not 16 bytes is refused (R136). -/
def setupRequest (bytes : List Byte) : Result :=
  if imageOk bytes then .next { State.reset with mem := imageMemory 0 bytes } else .refused .imageLength

/-- Setup of a machine given its parameters: a table with a word of several bus sources is refused first
(30_encoding.md R70). DESIGN CHOICE, log entry 21: the spec does not say whether an OPCODE_MAP or a CW_BITS that takes a
value twice is refused; it is accepted here, and `Params.mapsOk` only says of such maps that they repeat a value. -/
def configure (P : Params) (bytes : List Byte) : Result :=
  if P.tableOk then setupRequest bytes else .refused .multiSourceWord

/-- The view of a state, with the step of the tick it stands for (R36). -/
def viewOf (done : MicroStep) (s : State) : View :=
  { cw := s.cw, bus := s.bus, a := s.a, b := s.b, sum := s.sum, out := s.out, carry := s.carry, zero := s.zero,
    mem := s.mem, pc := s.pc, step := done }

/-- What the engine hands the observer in the next tick: the view after the tick with the step of that tick (R102); no
emission from a halted engine or on the halting tick (R90, R132). -/
def emission (P : Params) (s : State) : Option View :=
  if s.halted || (lookup P s).hlt then none else some (viewOf s.step (tickWith P s))

/-- The emissions of a number of ticks, in order. -/
def emissions (P : Params) : Nat → State → List View
  | 0, _ => []
  | n + 1, s => (emission P s).toList ++ emissions P n (tickWith P s)

/-- The snapshot the state holds: that of the last completed tick, whose step is one before the step counter (R36).
DESIGN CHOICE, log entry 22: the host may read it before any tick has completed (R141), and the spec gives no step for
that snapshot; here it shows 4, the step before 0 modulo 5, beside the other fields' values after setup (R39). -/
def heldView (s : State) : View := viewOf (s.step - 1) s

end Sys2Proof.Machine
end

