-- ==== Sys2Proof/Safety.lean ====
section
/-! DEFINITION. What holds of every state a run reaches, as claims use it. -/

namespace Sys2Proof

open Sys2Proof.Machine

/-- The opcodes of the instructions that reach memory at their operand: LDA, ADD, SUB, STA (20_memory.md R44). -/
def reachesMemory (opc : Nibble) : Bool :=
  opc == defaultOpcodeMap .lda || opc == defaultOpcodeMap .add || opc == defaultOpcodeMap .sub || opc == defaultOpcodeMap .sta

/-- The opcodes of ADD and SUB. -/
def usesAlu (opc : Nibble) : Bool := opc == defaultOpcodeMap .add || opc == defaultOpcodeMap .sub

/-- The invariant of the engine at the default parameters. -/
structure EngineInv (s : State) : Prop where
  /-- Memory keeps its canonical form: 16 entries, equal memories equal data. -/
  memory : s.mem.wf = true
  /-- The engine halts with `step = 2` and the HLT byte in IR (42_cycle_engine.md R90). -/
  halt : s.halted = true → s.step = 2 ∧ opcodeField s.ir = defaultOpcodeMap .hlt
  /-- After fetch step 0, MA is PC (41_microcode.md R82). -/
  fetchAddress : s.step = 1 → s.ma = s.pc
  /-- After fetch step 1, PC is the instruction's address plus one and IR its byte (10_state.md R21). -/
  fetched : s.step = 2 → s.pc = s.ma + 1 ∧ s.ir = memRead s.mem s.ma
  /-- From step 3 to the next fetch, MA holds the operand of an instruction that reaches memory (R144). -/
  operandAddress : s.step ≠ 1 → s.step ≠ 2 → reachesMemory (opcodeField s.ir) = true → s.ma = operandField s.ir
  /-- After step 3 of ADD and SUB, B holds the memory operand (44_arithmetic.md R112). -/
  operandInB : s.step = 4 ∨ s.step = 0 → usesAlu (opcodeField s.ir) = true → s.b = memRead s.mem s.ma
  /-- The `cw` field is the word of the last completed tick (10_state.md R31). -/
  controlWord : s.cw = cwNumber defaultCwBits (defaultMicrocode (opcodeField s.ir) (s.step - 1))

/-- Between two instructions of a run that has not halted: the next tick is a fetch step 0. -/
def AtBoundary (s : State) : Prop := s.halted = false ∧ s.step = 0

/-- A run is safe up to a state if it has met the invariant; no step of this block can fault or be refused. -/
def Safe (s : State) : Prop := EngineInv s ∧ ∃ t, Machine.step s = .next t

/-- Two states alike for the engine: equal in every field but the Output register and the snapshot fields. -/
def AlikeForTheEngine (s t : State) : Prop :=
  s.a = t.a ∧ s.b = t.b ∧ s.ir = t.ir ∧ s.pc = t.pc ∧ s.ma = t.ma ∧ s.carry = t.carry ∧ s.zero = t.zero ∧
    s.mem = t.mem ∧ s.step = t.step ∧ s.halted = t.halted

end Sys2Proof
end

