-- ==== Sys2Proof/Certificates/Slice0/Obligations.lean ====
section
/-! DEFINITION. The statements for the provers. Each docstring names the rule of spec/ it formalises. Where a statement
speaks of an opcode number, a control word's number or a row of the microcode table, it speaks of the spec's defaults
(92_eei_decisions.md D1, D2, D3: log entries 4, 5, 6). -/

open Sys2Proof Sys2Proof.Machine

/-! ## Encoding -/

/-- Decode and encode agree, on every instruction with every operand and on every byte: no bit of an encoding is
dropped, and every byte is the encoding of one instruction (30_encoding.md R60, R65). -/
def Obligations.DecodeEncodeAgree : Prop :=
  (∀ (i : Instr) (rest : List Byte), decode (encode i :: rest) = .ok (i, rest)) ∧
  (∀ b : Byte, encode (decodeByte b) = b)

/-- R60: the byte is `opcode<<4 | operand`; decoding takes bits 7..4 as the opcode and bits 3..0 as the operand; the
opcode selects the microcode row, and the operand is what instruction-out drives onto the bus. -/
def Obligations.ByteIsOpcodeAndOperand : Prop :=
  (∀ i : Instr, (encode i).toNat = 16 * i.opcode.toNat + i.operand.toNat) ∧
  (∀ b : Byte, (decodeByte b).opcode.toNat = b.toNat / 16 ∧ (decodeByte b).operand.toNat = b.toNat % 16) ∧
  (∀ (P : Params) (s : State), lookup P s = P.microcode (BitVec.ofNat 4 (s.ir.toNat / 16)) s.step) ∧
  (∀ (P : Params) (opc : Nibble) (s : State),
    (tickWord P opc { io := true } s).bus.toNat = s.ir.toNat % 16)

/-- Words written out bit by bit from 30_encoding.md R60 and R63 decode to the instructions they stand for, one of each
family and each unassigned opcode. -/
def Obligations.WrittenWordsDecode : Prop :=
  decodeTableWord 8 0b00011110 = some (.lda 14) ∧
  decodeTableWord 8 0b01001111 = some (.sta 15) ∧
  decodeTableWord 8 0b01011001 = some (.ldi 9) ∧
  decodeTableWord 8 0b11100000 = some (.out 0) ∧
  decodeTableWord 8 0b00101110 = some (.add 14) ∧
  decodeTableWord 8 0b00111101 = some (.sub 13) ∧
  decodeTableWord 8 0b01100011 = some (.jmp 3) ∧
  decodeTableWord 8 0b01111001 = some (.jc 9) ∧
  decodeTableWord 8 0b10000101 = some (.jz 5) ∧
  decodeTableWord 8 0b00000000 = some (.nop 0) ∧
  decodeTableWord 8 0b11110000 = some (.hlt 0) ∧
  decodeTableWord 8 0b10010001 = some (.unassigned9 1) ∧
  decodeTableWord 8 0b10100111 = some (.unassignedA 7) ∧
  decodeTableWord 8 0b10110010 = some (.unassignedB 2) ∧
  decodeTableWord 8 0b11000100 = some (.unassignedC 4) ∧
  decodeTableWord 8 0b11011000 = some (.unassignedD 8)

/-- Every row of spec/opcode_table.json, as its match and mask: a byte whose bits under the mask 0xF0 are the match
decodes to that row's instruction with the byte's low four bits as its operand, and the bytes after it are left. -/
def Obligations.DecoderFollowsOpcodeTable : Prop :=
  ∀ (b : Byte) (rest : List Byte),
    (b &&& 0xF0 = 0x00 → decode (b :: rest) = .ok (.nop (b.setWidth 4), rest)) ∧
    (b &&& 0xF0 = 0x10 → decode (b :: rest) = .ok (.lda (b.setWidth 4), rest)) ∧
    (b &&& 0xF0 = 0x20 → decode (b :: rest) = .ok (.add (b.setWidth 4), rest)) ∧
    (b &&& 0xF0 = 0x30 → decode (b :: rest) = .ok (.sub (b.setWidth 4), rest)) ∧
    (b &&& 0xF0 = 0x40 → decode (b :: rest) = .ok (.sta (b.setWidth 4), rest)) ∧
    (b &&& 0xF0 = 0x50 → decode (b :: rest) = .ok (.ldi (b.setWidth 4), rest)) ∧
    (b &&& 0xF0 = 0x60 → decode (b :: rest) = .ok (.jmp (b.setWidth 4), rest)) ∧
    (b &&& 0xF0 = 0x70 → decode (b :: rest) = .ok (.jc (b.setWidth 4), rest)) ∧
    (b &&& 0xF0 = 0x80 → decode (b :: rest) = .ok (.jz (b.setWidth 4), rest)) ∧
    (b &&& 0xF0 = 0x90 → decode (b :: rest) = .ok (.unassigned9 (b.setWidth 4), rest)) ∧
    (b &&& 0xF0 = 0xA0 → decode (b :: rest) = .ok (.unassignedA (b.setWidth 4), rest)) ∧
    (b &&& 0xF0 = 0xB0 → decode (b :: rest) = .ok (.unassignedB (b.setWidth 4), rest)) ∧
    (b &&& 0xF0 = 0xC0 → decode (b :: rest) = .ok (.unassignedC (b.setWidth 4), rest)) ∧
    (b &&& 0xF0 = 0xD0 → decode (b :: rest) = .ok (.unassignedD (b.setWidth 4), rest)) ∧
    (b &&& 0xF0 = 0xE0 → decode (b :: rest) = .ok (.out (b.setWidth 4), rest)) ∧
    (b &&& 0xF0 = 0xF0 → decode (b :: rest) = .ok (.hlt (b.setWidth 4), rest))

/-- The assembler of 30_encoding.md R71 and R72 accepts exactly the well-formed programs, and every image it gives has
16 bytes (the syntax is the spec's choice, 92_eei_decisions.md D13: log entry 16). -/
def Obligations.AssemblerAcceptsWellFormedPrograms : Prop :=
  ∀ ls : List SourceLine,
    ((∃ image, assemble ls = .ok image) ↔ programWf ls = true) ∧
    (∀ image, assemble ls = .ok image → imageOk image = true)

/-- R72 and R71: in an assembled image, line k is at address k, an instruction as 16 times its opcode plus its operand
(0 where it is omitted) and `DB v` as v, and every entry past the last line is 0 (the syntax is the spec's choice,
92_eei_decisions.md D13: log entry 16; the opcode numbers are D1: log entry 4). -/
def Obligations.AssemblerPlacesLinesInOrder : Prop :=
  ∀ (ls : List SourceLine) (image : List Byte), assemble ls = .ok image →
    ∀ k < 16, (image[k]?).map BitVec.toNat = some (match ls[k]? with
      | some (SourceLine.ins m n) => 16 * (defaultOpcodeMap m).toNat + n.getD 0
      | some (SourceLine.db v) => v
      | none => 0)

/-! ## Datapath -/

/-- R75 and R76: the sum modulo 256 with its carry, the difference modulo 256 with its borrow. -/
def Obligations.AluAddsAndSubtractsModulo256 : Prop :=
  (∀ a b : Byte, (alu a b false).1.toNat = (a.toNat + b.toNat) % 256 ∧
    ((alu a b false).2 = true ↔ a.toNat + b.toNat ≥ 256)) ∧
  (∀ a b : Byte, ((alu a b true).1.toNat : Int) = ((a.toNat : Int) - b.toNat) % 256 ∧
    ((alu a b true).2 = true ↔ a.toNat < b.toNat) ∧
    (a = b → alu a b true = (0, false)) ∧
    (a.toNat > b.toNat → (alu a b true).2 = false))

/-- R73: the truncation keeps the low four bits and clears bits 4 to 7; it is what memory-address-in and a jump write,
what instruction-out takes of IR, and the counter increment wraps the same way. -/
def Obligations.TruncationKeepsLowFourBits : Prop :=
  (∀ x : Byte, (trunc4 x).setWidth 8 = x &&& 0x0F) ∧
  (∀ (P : Params) (opc : Nibble) (cw : ControlWord) (s : State), cw.hlt = false →
    (cw.mi = true → (tickWord P opc cw s).ma.setWidth 8 = (tickWord P opc cw s).bus &&& 0x0F) ∧
    (cw.j = true → opc ≠ P.opcodeMap .jc → opc ≠ P.opcodeMap .jz →
      (tickWord P opc cw s).pc.setWidth 8 = (tickWord P opc cw s).bus &&& 0x0F) ∧
    (cw.ce = true → cw.j = false →
      (tickWord P opc cw s).pc.setWidth 8 = (s.pc.setWidth 8 + 1#8) &&& 0x0F)) ∧
  (∀ (P : Params) (opc : Nibble) (s : State), (tickWord P opc { io := true } s).bus = s.ir &&& 0x0F)

/-! ## The tick, for every control word, opcode and parameter -/

/-- R124 and R90 (its latch and its fields kept are the spec's decision D9: log entry 8): a word with the halt flag sets
the latch and has no other effect, whatever else it sets. -/
def Obligations.HaltFlagEndsTheTick : Prop :=
  ∀ (P : Params) (opc : Nibble) (cw : ControlWord) (s : State), cw.hlt = true →
    tickWord P opc cw s = { s with halted := true }

/-- R91: counter-enable increments PC modulo 16; without it, and without a jump, PC keeps its value. -/
def Obligations.CounterEnableIncrementsPc : Prop :=
  ∀ (P : Params) (opc : Nibble) (cw : ControlWord) (s : State), cw.hlt = false → cw.j = false →
    (cw.ce = true → (tickWord P opc cw s).pc.toNat = (s.pc.toNat + 1) % 16) ∧
    (cw.ce = false → (tickWord P opc cw s).pc = s.pc)

/-- R92, R94 and R23: with flags-in the two flags are overwritten by this tick's ALU result and depend on nothing else;
without it they keep their values, and so they do on a tick that halts, even with flags-in (R90 and R124, the spec's
decision D9: log entry 8). -/
def Obligations.FlagsInOverwritesBothFlags : Prop :=
  ∀ (P : Params) (opc : Nibble) (cw : ControlWord) (s : State),
    (cw.hlt = false → cw.fi = true →
      (tickWord P opc cw s).carry = (alu s.a s.b cw.su).2 ∧
      ((tickWord P opc cw s).zero = true ↔ (alu s.a s.b cw.su).1 = 0)) ∧
    (cw.hlt = true ∨ cw.fi = false →
      (tickWord P opc cw s).carry = s.carry ∧ (tickWord P opc cw s).zero = s.zero)

/-- R88 and R95: the bus starts the tick at 0 and takes the source listed last among those the word sets, in the order
memory-out, instruction-out, accumulator-out, sum-out, counter-out. -/
def Obligations.LastListedBusSourceWins : Prop :=
  ∀ (P : Params) (opc : Nibble) (cw : ControlWord) (s : State), cw.hlt = false →
    (cw.co = true → (tickWord P opc cw s).bus = (if cw.ce then s.pc + 1 else s.pc).setWidth 8) ∧
    (cw.co = false → cw.eo = true → (tickWord P opc cw s).bus = (alu s.a s.b cw.su).1) ∧
    (cw.co = false → cw.eo = false → cw.ao = true → (tickWord P opc cw s).bus = s.a) ∧
    (cw.co = false → cw.eo = false → cw.ao = false → cw.io = true →
      (tickWord P opc cw s).bus = s.ir &&& 0x0F) ∧
    (cw.co = false → cw.eo = false → cw.ao = false → cw.io = false → cw.ro = true →
      (tickWord P opc cw s).bus = memRead s.mem s.ma) ∧
    (cw.co = false → cw.eo = false → cw.ao = false → cw.io = false → cw.ro = false →
      (tickWord P opc cw s).bus = 0)

/-- R97 and R98: every sink the word sets takes the tick's bus value, every other register keeps its own; memory-write
writes the one entry at MA as the same phase left it (R98 is the spec's decision D5: log entry 7). -/
def Obligations.SinksTakeTheBus : Prop :=
  ∀ (P : Params) (opc : Nibble) (cw : ControlWord) (s : State), cw.hlt = false →
    (tickWord P opc cw s).a = (if cw.ai then (tickWord P opc cw s).bus else s.a) ∧
    (tickWord P opc cw s).b = (if cw.bi then (tickWord P opc cw s).bus else s.b) ∧
    (tickWord P opc cw s).out = (if cw.oi then (tickWord P opc cw s).bus else s.out) ∧
    (tickWord P opc cw s).ir = (if cw.ii then (tickWord P opc cw s).bus else s.ir) ∧
    (tickWord P opc cw s).ma = (if cw.mi then (tickWord P opc cw s).bus.setWidth 4 else s.ma) ∧
    (∀ addr : Nibble, memRead (tickWord P opc cw s).mem addr =
      if cw.ri = true ∧ addr = (tickWord P opc cw s).ma then (tickWord P opc cw s).bus else memRead s.mem addr)

/-- R99 and R100: the jump flag writes the low four bits of the bus to PC; for the two conditional jumps, told by opcode
identity, only if Carry (or Zero) is set after this tick's flag phase (the tested value is the spec's decision D7: log
entry 7); otherwise the jump leaves the counter to the increment. Under a map
that gives both one value either flag takes the jump, where R104 differs: the model's choice, log entry 23. -/
def Obligations.JumpResolution : Prop :=
  ∀ (P : Params) (opc : Nibble) (cw : ControlWord) (s : State), cw.hlt = false → cw.j = true →
    (opc ≠ P.opcodeMap .jc → opc ≠ P.opcodeMap .jz →
      (tickWord P opc cw s).pc = (tickWord P opc cw s).bus.setWidth 4) ∧
    (opc = P.opcodeMap .jc ∨ opc = P.opcodeMap .jz →
      (tickWord P opc cw s).pc =
        if (opc = P.opcodeMap .jc ∧ (tickWord P opc cw s).carry = true) ∨
            (opc = P.opcodeMap .jz ∧ (tickWord P opc cw s).zero = true) then
          (tickWord P opc cw s).bus.setWidth 4
        else if cw.ce then s.pc + 1 else s.pc)

/-- R103: every tick that does not halt advances the step modulo 5, whatever the opcode and the word; the step never
holds 5. -/
def Obligations.StepAdvancesModulo5 : Prop :=
  ∀ (P : Params) (opc : Nibble) (cw : ControlWord) (s : State), cw.hlt = false →
    (tickWord P opc cw s).step.val = (s.step.val + 1) % 5 ∧ (tickWord P opc cw s).step.val ≠ 5

/-- R146: the orders inside a tick that the default table never meets, for any word that does (R98, R100, R101 are the
spec's decisions D5, D7, D6: log entry 7). With J and II the byte loaded into IR has no say in the jump: PC is decided
by the opcode of the old IR, for every old opcode. With FI and J the flag tested is the one of this tick's ALU result.
Under a map that gives JC and JZ one opcode either flag takes the jump, the model's choice: log entry 23. -/
def Obligations.IntraTickOrders : Prop :=
  ∀ (P : Params) (s : State), s.halted = false → (lookup P s).hlt = false →
    ((lookup P s).ce = true → (lookup P s).co = true → (tickWith P s).bus = (s.pc + 1).setWidth 8) ∧
    ((lookup P s).sources = [true, false, false, false, false] → (lookup P s).mi = true →
      (tickWith P s).bus = memRead s.mem s.ma) ∧
    ((lookup P s).mi = true → (lookup P s).ri = true →
      memRead (tickWith P s).mem ((tickWith P s).bus.setWidth 4) = (tickWith P s).bus) ∧
    ((lookup P s).j = true → (lookup P s).ce = true →
      opcodeField s.ir ≠ P.opcodeMap .jc → opcodeField s.ir ≠ P.opcodeMap .jz →
      (tickWith P s).pc = (tickWith P s).bus.setWidth 4) ∧
    ((lookup P s).j = true → (lookup P s).ii = true →
      (tickWith P s).ir = (tickWith P s).bus ∧
      (opcodeField s.ir ≠ P.opcodeMap .jc → opcodeField s.ir ≠ P.opcodeMap .jz →
        (tickWith P s).pc = (tickWith P s).bus.setWidth 4) ∧
      (opcodeField s.ir = P.opcodeMap .jc ∨ opcodeField s.ir = P.opcodeMap .jz →
        (tickWith P s).pc =
          if (opcodeField s.ir = P.opcodeMap .jc ∧ (tickWith P s).carry = true) ∨
              (opcodeField s.ir = P.opcodeMap .jz ∧ (tickWith P s).zero = true) then
            (tickWith P s).bus.setWidth 4
          else if (lookup P s).ce then s.pc + 1 else s.pc)) ∧
    ((lookup P s).fi = true → (lookup P s).j = true →
      opcodeField s.ir = P.opcodeMap .jc ∨ opcodeField s.ir = P.opcodeMap .jz →
      (tickWith P s).pc =
        if (opcodeField s.ir = P.opcodeMap .jc ∧ (alu s.a s.b (lookup P s).su).2 = true) ∨
            (opcodeField s.ir = P.opcodeMap .jz ∧ (alu s.a s.b (lookup P s).su).1 = 0) then
          (tickWith P s).bus.setWidth 4
        else if (lookup P s).ce then s.pc + 1 else s.pc)

/-! ## Microcode -/

/-- The default table as 16-bit words (R81, the spec's decisions D2 and D3: log entries 5 and 6), all five steps of all
sixteen opcodes: the word of each tick is the entry of the opcode in IR and the step; the tick halts where the entry is
0x8000, and else leaves the entry in the field the observer reads. That the field is state and holds the last tick's
word is the spec's decision D8 (R31: log entry 9), and that the halting tick keeps it is D9 (R90: log entry 8). -/
def Obligations.MicrocodeTableWords : Prop :=
  ∀ s : State, s.halted = false →
    let words : List (List (BitVec 16)) :=
      [[0x4004, 0x1408, 0x0000, 0x0000, 0x0000],
       [0x4004, 0x1408, 0x4800, 0x1200, 0x0000],
       [0x4004, 0x1408, 0x4800, 0x1020, 0x0281],
       [0x4004, 0x1408, 0x4800, 0x1020, 0x02C1],
       [0x4004, 0x1408, 0x4800, 0x2100, 0x0000],
       [0x4004, 0x1408, 0x0A00, 0x0000, 0x0000],
       [0x4004, 0x1408, 0x0802, 0x0000, 0x0000],
       [0x4004, 0x1408, 0x0802, 0x0000, 0x0000],
       [0x4004, 0x1408, 0x0802, 0x0000, 0x0000],
       [0x4004, 0x1408, 0x0000, 0x0000, 0x0000],
       [0x4004, 0x1408, 0x0000, 0x0000, 0x0000],
       [0x4004, 0x1408, 0x0000, 0x0000, 0x0000],
       [0x4004, 0x1408, 0x0000, 0x0000, 0x0000],
       [0x4004, 0x1408, 0x0000, 0x0000, 0x0000],
       [0x4004, 0x1408, 0x0110, 0x0000, 0x0000],
       [0x4004, 0x1408, 0x8000, 0x0000, 0x0000]]
    let entry : BitVec 16 := (words.getD (s.ir.toNat / 16) []).getD s.step.val 0
    cwNumber defaultCwBits (lookup defaultParams s) = entry ∧
    (entry = 0x8000 → (tick s).halted = true ∧ (tick s).cw = s.cw) ∧
    (entry ≠ 0x8000 → (tick s).halted = false ∧ (tick s).cw = entry)

/-- R82: steps 0 and 1 of every row are the fetch, whatever opcode IR holds: step 0 takes PC into MA, step 1 takes the
entry at MA into IR and advances PC. -/
def Obligations.EveryRowBeginsWithFetch : Prop :=
  (∀ opc : Nibble, defaultMicrocode opc 0 = { co := true, mi := true } ∧
    defaultMicrocode opc 1 = { ro := true, ii := true, ce := true }) ∧
  (∀ s : State, s.halted = false → s.step = 0 → (tick s).ma = s.pc ∧ (tick s).pc = s.pc ∧ (tick s).ir = s.ir) ∧
  (∀ s : State, s.halted = false → s.step = 1 →
    (tick s).ir = memRead s.mem s.ma ∧ (tick s).pc.toNat = (s.pc.toNat + 1) % 16)

/-- R70 (its refusal is the spec's decision D16: log entry 11): no word of the default table sets two bus sources, and a
configuration is refused exactly when its table holds a word that does. -/
def Obligations.TablesWithTwoSourcesAreRefused : Prop :=
  (∀ (opc : Nibble) (st : MicroStep), (defaultMicrocode opc st).singleSource = true) ∧
  (∀ (P : Params) (bytes : List Byte),
    configure P bytes = .refused .multiSourceWord ↔
      ∃ (opc : Nibble) (st : MicroStep), (P.microcode opc st).singleSource = false)

/-- The unassigned opcodes are no-ops under any opcode map, and a map without repeats gives each mnemonic its own row
(R64, 93_implementation_defined.md I3; the default map is the spec's decision D1: log entry 4). -/
def Obligations.UnassignedOpcodesAreNoOpsUnderEveryMap : Prop :=
  ∀ map : Mnemonic → Nibble,
    (∀ opc : Nibble, (∀ m, map m ≠ opc) → microcodeFor map opc = rowFetchOnly) ∧
    ((∀ m m', map m = map m' → m = m') → ∀ m, microcodeFor map (map m) = rowOfMnemonic m)

/-! ## Setup, reset and memory -/

/-- R135: setup zeroes every register, both flags, the step counter and the snapshot fields, clears the halted latch and
puts byte `i` of the image in entry `i` (R135 names all of them; 10_state.md R39 gives bus, sum, cw and halted as D8 and
D9: log entry 9). -/
def Obligations.SetupZeroesAllAndLoadsTheImage : Prop :=
  ∀ image : Vector Byte 16,
    (setup image).a = 0 ∧ (setup image).b = 0 ∧ (setup image).out = 0 ∧ (setup image).ir = 0 ∧
    (setup image).pc = 0 ∧ (setup image).ma = 0 ∧ (setup image).carry = false ∧ (setup image).zero = false ∧
    (setup image).step = 0 ∧ (setup image).halted = false ∧ (setup image).bus = 0 ∧ (setup image).sum = 0 ∧
    (setup image).cw = 0 ∧
    (∀ i : Fin 16, memRead (setup image).mem (BitVec.ofFin i) = image[i])

/-- R136 (the spec's decision D14: log entry 12): setup is refused exactly when the image is not 16 bytes, also through
`configure`. Reset is setup with sixteen zero bytes (the model's choice: log entry 3). -/
def Obligations.SetupTakesExactlySixteenBytes : Prop :=
  (∀ bytes : List Byte, bytes.length ≠ 16 →
    setupRequest bytes = .refused .imageLength ∧ configure defaultParams bytes = .refused .imageLength) ∧
  (∀ image : Vector Byte 16,
    setupRequest image.toList = .next (setup image) ∧ configure defaultParams image.toList = .next (setup image)) ∧
  State.reset = setup (Vector.replicate 16 0)

/-- R138 and R139: after setup the first tick is the fetch word at address 0, the second loads IR from entry 0, and the
first instruction run is that entry's. -/
def Obligations.FirstInstructionIsEntryZero : Prop :=
  ∀ image : Vector Byte 16,
    (ticks 1 (setup image)).cw = 0x4004 ∧ (ticks 1 (setup image)).ma = 0 ∧
    (ticks 2 (setup image)).ir = image[0] ∧ (ticks 2 (setup image)).pc = 1 ∧
    Machine.step (setup image) = exec (decodeByte image[0]) (setup image)

/-- Equal memories are equal data: two memories in canonical form that read the same at every address are the same
list (the form is the model's choice: log entry 19). -/
def Obligations.CanonicalMemoriesAreExtensional : Prop :=
  ∀ m m' : Memory, m.wf = true → m'.wf = true → (∀ a : Nibble, memRead m a = memRead m' a) → m = m'

/-! ## Each instruction's result, from an instruction boundary with PC = p; every field the result does not name keeps
its value. `bus`, `sum` and `cw` are the snapshot of the last tick (D8: log entry 9). -/

/-- LDA n (R108). -/
def Obligations.LdaLoadsTheEntry : Prop :=
  ∀ (n : Nibble) (s : State), AtBoundary s →
    exec (.lda n) s = .next { s with
      a := memRead s.mem n, ma := n, pc := s.pc + 1, ir := 0x10#8 ||| n.setWidth 8,
      bus := 0, sum := memRead s.mem n + s.b, cw := 0x0000 }

/-- STA n (R109): one entry changes; a store to the STA's own address leaves the running instruction as it is. -/
def Obligations.StaStoresTheAccumulator : Prop :=
  ∀ (n : Nibble) (s : State), AtBoundary s →
    exec (.sta n) s = .next { s with
      mem := memWrite s.mem n s.a, ma := n, pc := s.pc + 1, ir := 0x40#8 ||| n.setWidth 8,
      bus := 0, sum := s.a + s.b, cw := 0x0000 } ∧
    (∀ addr : Nibble, memRead (memWrite s.mem n s.a) addr = if addr = n then s.a else memRead s.mem addr)

/-- LDI n (R110). -/
def Obligations.LdiLoadsTheOperand : Prop :=
  ∀ (n : Nibble) (s : State), AtBoundary s →
    exec (.ldi n) s = .next { s with
      a := n.setWidth 8, ma := s.pc, pc := s.pc + 1, ir := 0x50#8 ||| n.setWidth 8,
      bus := 0, sum := n.setWidth 8 + s.b, cw := 0x0000 }

/-- OUT (R111), for every value of the ignored operand bits. -/
def Obligations.OutWritesTheOutputRegister : Prop :=
  ∀ (x : Nibble) (s : State), AtBoundary s →
    exec (.out x) s = .next { s with
      out := s.a, ma := s.pc, pc := s.pc + 1, ir := 0xE0#8 ||| x.setWidth 8,
      bus := 0, sum := s.a + s.b, cw := 0x0000 }

/-- ADD n (R113). -/
def Obligations.AddAddsTheEntry : Prop :=
  ∀ (n : Nibble) (s : State), AtBoundary s →
    exec (.add n) s = .next { s with
      a := s.a + memRead s.mem n, b := memRead s.mem n,
      carry := decide (s.a.toNat + (memRead s.mem n).toNat ≥ 256),
      zero := decide ((s.a.toNat + (memRead s.mem n).toNat) % 256 = 0),
      ma := n, pc := s.pc + 1, ir := 0x20#8 ||| n.setWidth 8,
      bus := s.a + memRead s.mem n, sum := s.a + memRead s.mem n, cw := 0x0281 }

/-- SUB n (R114): Carry is the borrow, and Carry and Zero are never both set. -/
def Obligations.SubSubtractsTheEntry : Prop :=
  ∀ (n : Nibble) (s : State), AtBoundary s →
    exec (.sub n) s = .next { s with
      a := s.a - memRead s.mem n, b := memRead s.mem n,
      carry := decide (s.a.toNat < (memRead s.mem n).toNat), zero := decide (s.a = memRead s.mem n),
      ma := n, pc := s.pc + 1, ir := 0x30#8 ||| n.setWidth 8,
      bus := s.a - memRead s.mem n, sum := s.a - memRead s.mem n, cw := 0x02C1 } ∧
    ¬ (s.a.toNat < (memRead s.mem n).toNat ∧ s.a = memRead s.mem n)

/-- NOP (R116), for every value of the ignored operand bits. -/
def Obligations.NopOnlyAdvances : Prop :=
  ∀ (x : Nibble) (s : State), AtBoundary s →
    exec (.nop x) s = .next { s with
      ma := s.pc, pc := s.pc + 1, ir := x.setWidth 8, bus := 0, sum := s.a + s.b, cw := 0x0000 }

/-- JMP n (R117). -/
def Obligations.JmpJumps : Prop :=
  ∀ (n : Nibble) (s : State), AtBoundary s →
    exec (.jmp n) s = .next { s with
      ma := s.pc, pc := n, ir := 0x60#8 ||| n.setWidth 8, bus := 0, sum := s.a + s.b, cw := 0x0000 }

/-- JC n (R118): taken if Carry is set, else it falls through to the next address. -/
def Obligations.JcJumpsOnCarry : Prop :=
  ∀ (n : Nibble) (s : State), AtBoundary s →
    exec (.jc n) s = .next { s with
      ma := s.pc, pc := if s.carry then n else s.pc + 1, ir := 0x70#8 ||| n.setWidth 8,
      bus := 0, sum := s.a + s.b, cw := 0x0000 }

/-- JZ n (R119): taken if Zero is set, else it falls through to the next address. -/
def Obligations.JzJumpsOnZero : Prop :=
  ∀ (n : Nibble) (s : State), AtBoundary s →
    exec (.jz n) s = .next { s with
      ma := s.pc, pc := if s.zero then n else s.pc + 1, ir := 0x80#8 ||| n.setWidth 8,
      bus := 0, sum := s.a + s.b, cw := 0x0000 }

/-- HLT (R120): it halts at step 2, and the snapshot fields keep the second tick's values (D9: log entry 8). -/
def Obligations.HltHaltsAtStepTwo : Prop :=
  ∀ (x : Nibble) (s : State), AtBoundary s →
    exec (.hlt x) s = .next { s with
      halted := true, step := 2, ma := s.pc, pc := s.pc + 1, ir := 0xF0#8 ||| x.setWidth 8,
      bus := 0xF0#8 ||| x.setWidth 8, sum := s.a + s.b, cw := 0x1408 }

/-- R121: each unassigned opcode behaves exactly as NOP, fetch and then three ticks with no action, and no state but IR
tells them apart (the values 0x9 to 0xD are those of the default map, D1: log entry 4). -/
def Obligations.UnassignedOpcodesBehaveAsNop : Prop :=
  (∀ opc ∈ [0x9#4, 0xA#4, 0xB#4, 0xC#4, 0xD#4], defaultMicrocode opc = defaultMicrocode 0x0 ∧
    defaultMicrocode opc 2 = {} ∧ defaultMicrocode opc 3 = {} ∧ defaultMicrocode opc 4 = {}) ∧
  ∀ (x : Nibble) (s : State), AtBoundary s →
    ∃ t, exec (.nop x) s = .next t ∧ t.pc.toNat = (s.pc.toNat + 1) % 16 ∧
      exec (.unassigned9 x) s = .next { t with ir := 0x90#8 ||| x.setWidth 8 } ∧
      exec (.unassignedA x) s = .next { t with ir := 0xA0#8 ||| x.setWidth 8 } ∧
      exec (.unassignedB x) s = .next { t with ir := 0xB0#8 ||| x.setWidth 8 } ∧
      exec (.unassignedC x) s = .next { t with ir := 0xC0#8 ||| x.setWidth 8 } ∧
      exec (.unassignedD x) s = .next { t with ir := 0xD0#8 ||| x.setWidth 8 }

/-! ## Frames and whole-machine rules -/

/-- R17, R18, R19: only LDA, ADD, SUB and LDI write A, only ADD and SUB write B, only OUT writes the Output register,
only HLT halts; from whatever micro-step the instruction runs. -/
def Obligations.RegistersOnlyWrittenByTheirInstructions : Prop :=
  ∀ (i : Instr) (s t : State), exec i s = .next t →
    (i.opcode ∉ [0x1#4, 0x2#4, 0x3#4, 0x5#4] → t.a = s.a) ∧
    (i.opcode ∉ [0x2#4, 0x3#4] → t.b = s.b) ∧
    (i.opcode ≠ 0xE#4 → t.out = s.out) ∧
    (i.opcode ≠ 0xF#4 → t.halted = s.halted)

/-- R25: only ADD and SUB write the flags; every other instruction keeps both, from whatever micro-step it runs. -/
def Obligations.FlagsOnlyWrittenByAddAndSub : Prop :=
  ∀ (i : Instr) (s t : State), exec i s = .next t → (∀ n, i ≠ .add n) → (∀ n, i ≠ .sub n) →
    t.carry = s.carry ∧ t.zero = s.zero

/-- R44 and R47: every instruction but STA leaves every entry as it was. STA n writes the one entry `tickMa` gives its
last memory address: n when the operand is still to reach MA, and MA itself when the run begins at step 3; past step 3
it stores nothing. -/
def Obligations.MemoryOnlyWrittenBySta : Prop :=
  (∀ (i : Instr) (s t : State), exec i s = .next t → (∀ n, i ≠ .sta n) →
    ∀ addr : Nibble, memRead t.mem addr = memRead s.mem addr) ∧
  (∀ (n : Nibble) (s t : State), s.halted = false → exec (.sta n) s = .next t →
    (s.step.val ≤ 2 → memRead t.mem n = s.a ∧ ∀ addr, addr ≠ n → memRead t.mem addr = memRead s.mem addr) ∧
    (s.step = 3 → memRead t.mem s.ma = s.a ∧ ∀ addr, addr ≠ s.ma → memRead t.mem addr = memRead s.mem addr) ∧
    (s.step = 4 → ∀ addr, memRead t.mem addr = memRead s.mem addr))

/-- R65: for the opcodes that ignore their operand, its value changes nothing but the byte in IR, which is the
instruction's own, from whatever micro-step. HLT alone shows the byte on the bus field too, which keeps what its fetch
delivered if the run began before the end of the fetch. -/
def Obligations.IgnoredOperandBitsHaveNoEffect : Prop :=
  ∀ (mk : Nibble → Instr),
    mk ∈ [Instr.nop, Instr.unassigned9, Instr.unassignedA, Instr.unassignedB, Instr.unassignedC, Instr.unassignedD,
          Instr.out, Instr.hlt] →
    ∀ (x y : Nibble) (s t u : State), exec (mk x) s = .next t → exec (mk y) s = .next u →
      u = { t with ir := u.ir, bus := u.bus } ∧
      ((∀ n, mk x ≠ .hlt n) ∨ 2 ≤ s.step.val → u.bus = t.bus) ∧
      (s.halted = false → t.ir = encode (mk x) ∧ u.ir = encode (mk y))

/-- R122: no instruction, in any state, ends in a fault or a refusal. -/
def Obligations.EveryInstructionCompletes : Prop := ∀ (i : Instr) (s : State), ∃ t, exec i s = .next t

/-- R56 and R57: a store to the next address is what runs next, with the accumulator as its byte; a store to the running
instruction's own address leaves that instruction as it is (IR keeps its byte, it stores and advances as any STA does),
and the new byte is what any later fetch of that address runs. -/
def Obligations.StoreIsSeenByTheNextFetch : Prop :=
  (∀ (s t : State), AtBoundary s → exec (.sta (s.pc + 1)) s = .next t →
    currentByte t = s.a ∧ Machine.step t = exec (decodeByte s.a) t) ∧
  (∀ (s t : State), AtBoundary s → exec (.sta s.pc) s = .next t →
    t.ir = encode (.sta s.pc) ∧ t.pc = s.pc + 1 ∧ AtBoundary t ∧ memRead t.mem s.pc = s.a ∧
    (∀ addr, addr ≠ s.pc → memRead t.mem addr = memRead s.mem addr) ∧
    (∀ u : State, u.step = 0 → u.pc = s.pc → u.mem = t.mem → Machine.step u = exec (decodeByte s.a) u))

/-! ## Steps, ticks and runs -/

/-- A step runs the decoded instruction: at an instruction boundary the byte at PC, in the middle of an instruction the
byte being fetched or in IR. The step adds nothing around exec, which fetches the byte and moves PC past it itself
(log entry 2). -/
def Obligations.StepRunsTheDecodedInstruction : Prop :=
  (∀ (s : State) (i : Instr), s.step = 0 → memRead s.mem s.pc = encode i → Machine.step s = exec i s) ∧
  (∀ (s : State) (i : Instr), s.step = 1 → memRead s.mem s.ma = encode i → Machine.step s = exec i s) ∧
  (∀ (s : State) (i : Instr), 2 ≤ s.step.val → s.ir = encode i → Machine.step s = exec i s)

/-- One step is the engine's own ticks, each looked up from IR in the microcode table, to the next instruction boundary
or the halt (R84, R104, R147; a step as whole instruction is log entry 1). -/
def Obligations.StepIsTheEnginesTicks : Prop :=
  ∀ s : State, Machine.step s = .next (ticks (5 - s.step.val) s)

/-- R147 and R84: from a boundary, an instruction that is not HLT takes exactly five ticks and does not halt; HLT sets the
latch on the third and takes no more. -/
def Obligations.TicksPerInstruction : Prop :=
  ∀ s : State, AtBoundary s →
    (opcodeField (memRead s.mem s.pc) ≠ 0xF →
      (∀ k < 5, (ticks k s).step.val = k ∧ (ticks k s).halted = false) ∧ AtBoundary (ticks 5 s)) ∧
    (opcodeField (memRead s.mem s.pc) = 0xF →
      (ticks 2 s).halted = false ∧ (ticks 3 s).halted = true ∧ ∀ k ≥ 3, ticks k s = ticks 3 s)

/-- R147: a run of k instructions that do not halt followed by HLT halts on tick 5k + 3, and not before. -/
def Obligations.RunHaltsOnTick5kPlus3 : Prop :=
  ∀ (k : Nat) (s t : State), AtBoundary s → Sys2Proof.core.run k s = .next t → t.halted = false →
    opcodeField (memRead t.mem t.pc) = 0xF →
    (∀ j < 5 * k + 3, (ticks j s).halted = false) ∧ (ticks (5 * k + 3) s).halted = true

/-- R148: the tick each effect lands on, for an instruction that starts at a boundary with its byte at PC: MA on the
first, IR and the increment on the second, a jump on the third, LDI's A and OUT's register on the third, LDA's A,
STA's store and B of ADD and SUB on the fourth, A and the flags of ADD and SUB on the fifth, and not earlier. -/
def Obligations.EffectsLandOnTheirTicks : Prop :=
  ∀ (s : State) (n : Nibble), AtBoundary s →
    (ticks 1 s).ma = s.pc ∧ (ticks 1 s).pc = s.pc ∧ (ticks 1 s).ir = s.ir ∧
    (ticks 2 s).ir = memRead s.mem s.pc ∧ (ticks 2 s).pc = s.pc + 1 ∧
    (memRead s.mem s.pc = encode (.jmp n) → (ticks 3 s).pc = n) ∧
    (memRead s.mem s.pc = encode (.jc n) → (ticks 3 s).pc = if s.carry then n else s.pc + 1) ∧
    (memRead s.mem s.pc = encode (.jz n) → (ticks 3 s).pc = if s.zero then n else s.pc + 1) ∧
    (memRead s.mem s.pc = encode (.lda n) → (ticks 3 s).a = s.a ∧ (ticks 3 s).ma = n ∧
      (ticks 4 s).a = memRead s.mem n) ∧
    (memRead s.mem s.pc = encode (.sta n) → (ticks 3 s).mem = s.mem ∧ memRead (ticks 4 s).mem n = s.a) ∧
    (memRead s.mem s.pc = encode (.ldi n) → (ticks 2 s).a = s.a ∧ (ticks 3 s).a = n.setWidth 8) ∧
    (memRead s.mem s.pc = encode (.out n) → (ticks 2 s).out = s.out ∧ (ticks 3 s).out = s.a) ∧
    (memRead s.mem s.pc = encode (.add n) →
      (ticks 3 s).b = s.b ∧ (ticks 4 s).b = memRead s.mem n ∧
      (ticks 4 s).a = s.a ∧ (ticks 4 s).carry = s.carry ∧ (ticks 4 s).zero = s.zero ∧
      (ticks 5 s).a = s.a + memRead s.mem n ∧
      ((ticks 5 s).carry = true ↔ s.a.toNat + (memRead s.mem n).toNat ≥ 256) ∧
      ((ticks 5 s).zero = true ↔ s.a + memRead s.mem n = 0)) ∧
    (memRead s.mem s.pc = encode (.sub n) →
      (ticks 3 s).b = s.b ∧ (ticks 4 s).b = memRead s.mem n ∧
      (ticks 4 s).a = s.a ∧ (ticks 4 s).carry = s.carry ∧ (ticks 4 s).zero = s.zero ∧
      (ticks 5 s).a = s.a - memRead s.mem n ∧
      ((ticks 5 s).carry = true ↔ s.a.toNat < (memRead s.mem n).toNat) ∧
      ((ticks 5 s).zero = true ↔ s.a = memRead s.mem n))

/-- A tick sets the halted latch only at step 2 of HLT, whatever the state (R90, R105, 90_conflicts.md C4). -/
def Obligations.OnlyHltHalts : Prop :=
  ∀ s : State, s.halted = false → ((tick s).halted = true ↔ s.step = 2 ∧ opcodeField s.ir = 0xF)

/-- R133, R126: nothing leaves the halted state: no tick, no step, no instruction changes it and no emission follows
(that a request after the halt has no effect is the spec's decision D9: log entry 8). -/
def Obligations.HaltedStateIsTerminal : Prop :=
  ∀ s : State, s.halted = true →
    (∀ n, ticks n s = s) ∧ Machine.step s = .next s ∧ (∀ i, exec i s = .next s) ∧
    (∀ n, Sys2Proof.core.run n s = .next s) ∧ (∀ n, emissions defaultParams n s = [])

/-! ## Invariant -/

/-- Every step keeps the invariant of `Safety.lean`. -/
def Obligations.EveryStepKeepsTheInvariant : Prop :=
  ∀ s t : State, EngineInv s → Machine.step s = .next t → EngineInv t

/-- Every tick keeps the invariant, so it also holds in the middle of an instruction. -/
def Obligations.EveryTickKeepsTheInvariant : Prop := ∀ s : State, EngineInv s → EngineInv (tick s)

/-- The invariant holds right after reset. -/
def Obligations.ResetMeetsTheInvariant : Prop := EngineInv State.reset

/-- The invariant holds right after setup with any image. -/
def Obligations.SetupMeetsTheInvariant : Prop := ∀ image : Vector Byte 16, EngineInv (setup image)

/-! ## The observer -/

/-- R36, R102, R132: a completed tick hands over the view of the state after it, with the step of that tick; a halted
engine and the halting tick hand over nothing (the halting tick is the spec's decision D9: log entry 8). -/
def Obligations.ObserverSeesEveryCompletedTick : Prop :=
  ∀ (P : Params) (s : State),
    ((s.halted = true ∨ (lookup P s).hlt = true) → emission P s = none) ∧
    (s.halted = false → (lookup P s).hlt = false →
      ∃ v, emission P s = some v ∧ v.step = s.step ∧ v.cw = cwNumber P.cwBits (lookup P s) ∧
        v.bus = (tickWith P s).bus ∧ v.sum = (alu s.a s.b (lookup P s).su).1 ∧
        v.a = (tickWith P s).a ∧ v.b = (tickWith P s).b ∧ v.out = (tickWith P s).out ∧
        v.carry = (tickWith P s).carry ∧ v.zero = (tickWith P s).zero ∧
        v.mem = (tickWith P s).mem ∧ v.pc = (tickWith P s).pc)

/-- The state keeps the last snapshot (R31, R34, R35; kept through the halt by the spec's decision D9: log entry 8). -/
def Obligations.HeldSnapshotIsTheLastEmission : Prop :=
  ∀ (P : Params) (s : State),
    (∀ v, emission P s = some v → heldView (tickWith P s) = v) ∧
    (emission P s = none → heldView (tickWith P s) = heldView s)

/-- R19, R31, R34, R35, R69: no rule of the engine reads the Output register or the fields bus, sum and cw, and none
depends on the control word's bit positions: states alike but for those, under parameters alike but for CW_BITS, stay
alike for any number of ticks. -/
def Obligations.OutputSnapshotAndBitPositionsAreNeverRead : Prop :=
  ∀ (P Q : Params), P.opcodeMap = Q.opcodeMap → P.microcode = Q.microcode →
    ∀ (n : Nat) (s t : State), AlikeForTheEngine s t → AlikeForTheEngine (ticksWith P n s) (ticksWith Q n t)
end

