-- ==== Sys2Proof/Laws/Decode.lean ====
section
/-! SUPPORT. The fields of a packed byte, and the decoder on each opcode. -/

namespace Sys2Proof

@[simp] theorem opcodeField_packByte (o n : Nibble) : opcodeField (packByte o n) = o := by
  revert o n; decide +kernel

@[simp] theorem operandField_packByte (o n : Nibble) : operandField (packByte o n) = n := by
  revert o n; decide +kernel

/-- Every byte is its two fields packed. -/
@[simp] theorem packByte_fields (b : Byte) : packByte (opcodeField b) (operandField b) = b := by
  revert b; decide +kernel

@[simp] theorem opcodeField_encode (i : Instr) : opcodeField (encode i) = i.opcode := opcodeField_packByte _ _

@[simp] theorem operandField_encode (i : Instr) : operandField (encode i) = i.operand := operandField_packByte _ _

/-- The decoder on a packed byte: the opcode's row, given the operand. -/
theorem decodeByte_packByte (o n : Nibble) : decodeByte (packByte o n) = decoderRows[o.toNat] n := by
  revert o n; decide +kernel

/-- The decoder's instruction has the byte's opcode. -/
@[simp] theorem opcode_decodeByte (b : Byte) : (decodeByte b).opcode = opcodeField b := by
  revert b; decide +kernel

/-- The decoder's instruction has the byte's operand. -/
@[simp] theorem operand_decodeByte (b : Byte) : (decodeByte b).operand = operandField b := by
  revert b; decide +kernel

end Sys2Proof
end

