-- ==== Sys2Proof/Laws/Memory.lean ====
section
/-! SUPPORT. The laws of memory: a write is read back and leaves every other entry alone, and every operation keeps the
canonical form. -/

namespace Sys2Proof.Machine

@[simp] theorem memRead_nil (a : Nibble) : memRead [] a = unlistedByte := rfl

theorem memRead_cons (k : Nat) (v : Byte) (rest : Memory) (a : Nibble) :
    memRead ((k, v) :: rest) a = if k = a.toNat then v else memRead rest a := rfl

theorem memRead_memDrop (k : Nat) (m : Memory) (a : Nibble) :
    memRead (memDrop k m) a = if k = a.toNat then unlistedByte else memRead m a := by
  induction m with
  | nil => simp [memDrop]
  | cons c rest ih =>
    obtain ⟨k', v⟩ := c
    by_cases hk : k' = k
    · subst hk
      simp only [memDrop, if_true, ih, memRead_cons]
      split <;> rfl
    · simp only [memDrop, if_neg hk, memRead_cons, ih]
      by_cases h1 : k' = a.toNat
      · have : k ≠ a.toNat := fun h => hk (h1.trans h.symm)
        simp [h1, this]
      · simp [h1]

theorem memRead_memInsert (k : Nat) (v : Byte) (m : Memory) (a : Nibble) :
    memRead (memInsert k v m) a = if k = a.toNat then v else memRead m a := by
  induction m with
  | nil => rfl
  | cons c rest ih =>
    obtain ⟨k', v'⟩ := c
    by_cases hk : k' < k
    · simp only [memInsert, if_pos hk, memRead_cons, ih]
      by_cases h1 : k' = a.toNat
      · have : k ≠ a.toNat := by omega
        simp [h1, this]
      · simp [h1]
    · simp only [memInsert, if_neg hk, memRead_cons]

/-- Read after write: the written entry gives the written byte, every other entry what it gave (20_memory.md R47). -/
@[simp] theorem memRead_memWrite (m : Memory) (a : Nibble) (v : Byte) (b : Nibble) :
    memRead (memWrite m a v) b = if b = a then v else memRead m b := by
  have hab : (a.toNat = b.toNat) = (b = a) := by
    rw [← BitVec.toNat_inj]
    exact propext eq_comm
  unfold memWrite
  split
  · next hv => rw [memRead_memDrop, hv]; simp only [hab]
  · rw [memRead_memInsert, memRead_memDrop]
    simp only [hab]
    split <;> rfl

theorem memRead_memWrite_self (m : Memory) (a : Nibble) (v : Byte) : memRead (memWrite m a v) a = v := by simp

theorem memRead_memWrite_ne (m : Memory) {a b : Nibble} (v : Byte) (h : b ≠ a) :
    memRead (memWrite m a v) b = memRead m b := by simp [h]

@[simp] theorem wfFrom_nil (lo : Nat) : Memory.wfFrom lo [] = true := rfl

@[simp] theorem wfFrom_cons (lo k : Nat) (v : Byte) (rest : Memory) :
    Memory.wfFrom lo ((k, v) :: rest) = true ↔
      lo ≤ k ∧ k < 16 ∧ v ≠ unlistedByte ∧ Memory.wfFrom (k + 1) rest = true := by
  simp [Memory.wfFrom, and_assoc]

theorem wfFrom_mono {lo lo' : Nat} {m : Memory} (h : Memory.wfFrom lo m = true) (hl : lo' ≤ lo) :
    Memory.wfFrom lo' m = true := by
  cases m with
  | nil => rfl
  | cons c rest =>
    obtain ⟨k, v⟩ := c
    rw [wfFrom_cons] at h ⊢
    exact ⟨by omega, h.2⟩

theorem wfFrom_memDrop {m : Memory} : ∀ {lo : Nat} (k : Nat), Memory.wfFrom lo m = true →
    Memory.wfFrom lo (memDrop k m) = true := by
  induction m with
  | nil => intros; rfl
  | cons c rest ih =>
    obtain ⟨k', v⟩ := c
    intro lo k h
    rw [wfFrom_cons] at h
    simp only [memDrop]
    split
    · exact wfFrom_mono (ih k h.2.2.2) (by omega)
    · rw [wfFrom_cons]
      exact ⟨h.1, h.2.1, h.2.2.1, ih k h.2.2.2⟩

/-- In canonical memory no cell below the bound is listed. -/
theorem memDrop_of_wfFrom {m : Memory} : ∀ {lo k : Nat}, Memory.wfFrom lo m = true → k < lo → memDrop k m = m := by
  induction m with
  | nil => intros; rfl
  | cons c rest ih =>
    obtain ⟨k', v⟩ := c
    intro lo k h hk
    rw [wfFrom_cons] at h
    have : k' ≠ k := by omega
    simp only [memDrop, if_neg this]
    rw [ih h.2.2.2 (by omega)]

theorem wfFrom_memInsert_memDrop {m : Memory} : ∀ {lo k : Nat} {v : Byte}, Memory.wfFrom lo m = true → lo ≤ k →
    k < 16 → v ≠ unlistedByte → Memory.wfFrom lo (memInsert k v (memDrop k m)) = true := by
  induction m with
  | nil =>
    intro lo k v _ hl hk hv
    simp only [memDrop, memInsert, wfFrom_cons]
    exact ⟨hl, hk, hv, rfl⟩
  | cons c rest ih =>
    obtain ⟨k', v'⟩ := c
    intro lo k v h hl hk hv
    rw [wfFrom_cons] at h
    obtain ⟨h1, h2, h3, h4⟩ := h
    by_cases he : k' = k
    · subst he
      simp only [memDrop, if_true, memDrop_of_wfFrom h4 (Nat.lt_succ_self k')]
      cases rest with
      | nil => simp only [memInsert, wfFrom_cons]; exact ⟨hl, hk, hv, rfl⟩
      | cons c2 rest2 =>
        obtain ⟨k2, v2⟩ := c2
        have h4' := h4
        rw [wfFrom_cons] at h4'
        have : ¬ k2 < k' := by omega
        simp only [memInsert, if_neg this]
        rw [wfFrom_cons]
        exact ⟨hl, hk, hv, h4⟩
    · simp only [memDrop, if_neg he, memInsert]
      by_cases hlt : k' < k
      · simp only [if_pos hlt]
        rw [wfFrom_cons]
        exact ⟨h1, h2, h3, ih h4 (by omega) hk hv⟩
      · simp only [if_neg hlt]
        rw [wfFrom_cons, wfFrom_cons]
        refine ⟨hl, hk, hv, by omega, h2, h3, ?_⟩
        rw [memDrop_of_wfFrom h4 (by omega)]
        exact h4

/-- A write keeps the canonical form. -/
theorem wf_memWrite {m : Memory} (a : Nibble) (v : Byte) (h : m.wf = true) : (memWrite m a v).wf = true := by
  unfold memWrite
  split
  · exact wfFrom_memDrop _ h
  · next hv => exact wfFrom_memInsert_memDrop h (Nat.zero_le _) a.isLt hv

/-- The memory phase of a tick keeps the canonical form. -/
theorem wf_tickMem {cw : ControlWord} {bus : Byte} {s : State} (h : s.mem.wf = true) :
    (tickMem cw bus s).wf = true := by
  unfold tickMem
  split
  · exact wf_memWrite _ _ h
  · exact h

theorem wfFrom_imageMemory {bytes : List Byte} : ∀ {k : Nat}, k + bytes.length ≤ 16 →
    Memory.wfFrom k (imageMemory k bytes) = true := by
  induction bytes with
  | nil => intros; rfl
  | cons b rest ih =>
    intro k hk
    simp only [List.length_cons] at hk
    have hr := ih (k := k + 1) (by omega)
    simp only [imageMemory]
    split
    · exact wfFrom_mono hr (by omega)
    · next hb => rw [wfFrom_cons]; exact ⟨Nat.le_refl k, by omega, hb, hr⟩

theorem memRead_imageMemory {bytes : List Byte} : ∀ (k : Nat) (a : Nibble), k ≤ a.toNat →
    memRead (imageMemory k bytes) a = bytes.getD (a.toNat - k) unlistedByte := by
  induction bytes with
  | nil => intros; simp [imageMemory]
  | cons b rest ih =>
    intro k a hk
    by_cases he : k = a.toNat
    · have hlow : ∀ (l : List Byte) (j : Nat), a.toNat < j → memRead (imageMemory j l) a = unlistedByte := by
        intro l
        induction l with
        | nil => intros; rfl
        | cons c l ihl =>
          intro j hj
          simp only [imageMemory]
          split
          · exact ihl _ (by omega)
          · rw [memRead_cons, if_neg (by omega), ihl _ (by omega)]
      simp only [imageMemory]
      split
      · next hb => rw [hlow _ _ (by omega), hb, he]; simp
      · rw [memRead_cons, if_pos he, he]; simp
    · have hsub : a.toNat - k = (a.toNat - (k + 1)) + 1 := by omega
      have hr := ih (k + 1) a (by omega)
      simp only [imageMemory]
      split
      · rw [hr, hsub]; simp
      · rw [memRead_cons, if_neg he, hr, hsub]; simp

end Sys2Proof.Machine
end

