-- ==== Sys2Proof/Laws/PerInstr.lean ====
section
/-! SUPPORT. A statement about every instruction as syntax, one lemma per constructor: family OpcodeRow. -/

/-- The opcode of an instruction is the row of spec/opcode_table.json its constructor stands for: decoding a byte with
that opcode gives that constructor with the byte's operand. -/
def Sys2Proof.Laws.OpcodeRow.Statement (i : Sys2Proof.Instr) : Prop :=
  ∀ n : Sys2Proof.Nibble, Sys2Proof.decodeByte (Sys2Proof.packByte i.opcode n) =
    match i with
    | .nop _ => .nop n | .lda _ => .lda n | .add _ => .add n | .sub _ => .sub n | .sta _ => .sta n
    | .ldi _ => .ldi n | .jmp _ => .jmp n | .jc _ => .jc n | .jz _ => .jz n
    | .unassigned9 _ => .unassigned9 n | .unassignedA _ => .unassignedA n | .unassignedB _ => .unassignedB n
    | .unassignedC _ => .unassignedC n | .unassignedD _ => .unassignedD n | .out _ => .out n | .hlt _ => .hlt n

namespace Sys2Proof.Laws.OpcodeRow

theorem nop (x : Nibble) : Statement (.nop x) := decodeByte_packByte 0x0
theorem lda (n : Nibble) : Statement (.lda n) := decodeByte_packByte 0x1
theorem add (n : Nibble) : Statement (.add n) := decodeByte_packByte 0x2
theorem sub (n : Nibble) : Statement (.sub n) := decodeByte_packByte 0x3
theorem sta (n : Nibble) : Statement (.sta n) := decodeByte_packByte 0x4
theorem ldi (n : Nibble) : Statement (.ldi n) := decodeByte_packByte 0x5
theorem jmp (n : Nibble) : Statement (.jmp n) := decodeByte_packByte 0x6
theorem jc (n : Nibble) : Statement (.jc n) := decodeByte_packByte 0x7
theorem jz (n : Nibble) : Statement (.jz n) := decodeByte_packByte 0x8
theorem unassigned9 (x : Nibble) : Statement (.unassigned9 x) := decodeByte_packByte 0x9
theorem unassignedA (x : Nibble) : Statement (.unassignedA x) := decodeByte_packByte 0xA
theorem unassignedB (x : Nibble) : Statement (.unassignedB x) := decodeByte_packByte 0xB
theorem unassignedC (x : Nibble) : Statement (.unassignedC x) := decodeByte_packByte 0xC
theorem unassignedD (x : Nibble) : Statement (.unassignedD x) := decodeByte_packByte 0xD
theorem out (x : Nibble) : Statement (.out x) := decodeByte_packByte 0xE
theorem hlt (x : Nibble) : Statement (.hlt x) := decodeByte_packByte 0xF

end Sys2Proof.Laws.OpcodeRow
end

