-- ==== Sys2Proof/Laws/State.lean ====
section
/-! SUPPORT. One lemma per field per named update of State, and the fields of a tick that does not halt. -/

namespace Sys2Proof.Machine

@[simp] theorem halt_a (s : State) : s.halt.a = s.a := rfl
@[simp] theorem halt_b (s : State) : s.halt.b = s.b := rfl
@[simp] theorem halt_out (s : State) : s.halt.out = s.out := rfl
@[simp] theorem halt_ir (s : State) : s.halt.ir = s.ir := rfl
@[simp] theorem halt_pc (s : State) : s.halt.pc = s.pc := rfl
@[simp] theorem halt_ma (s : State) : s.halt.ma = s.ma := rfl
@[simp] theorem halt_carry (s : State) : s.halt.carry = s.carry := rfl
@[simp] theorem halt_zero (s : State) : s.halt.zero = s.zero := rfl
@[simp] theorem halt_mem (s : State) : s.halt.mem = s.mem := rfl
@[simp] theorem halt_step (s : State) : s.halt.step = s.step := rfl
@[simp] theorem halt_halted (s : State) : s.halt.halted = true := rfl
@[simp] theorem halt_bus (s : State) : s.halt.bus = s.bus := rfl
@[simp] theorem halt_sum (s : State) : s.halt.sum = s.sum := rfl
@[simp] theorem halt_cw (s : State) : s.halt.cw = s.cw := rfl

@[simp] theorem setIr_a (s : State) (v : Byte) : (s.setIr v).a = s.a := rfl
@[simp] theorem setIr_b (s : State) (v : Byte) : (s.setIr v).b = s.b := rfl
@[simp] theorem setIr_out (s : State) (v : Byte) : (s.setIr v).out = s.out := rfl
@[simp] theorem setIr_ir (s : State) (v : Byte) : (s.setIr v).ir = v := rfl
@[simp] theorem setIr_pc (s : State) (v : Byte) : (s.setIr v).pc = s.pc := rfl
@[simp] theorem setIr_ma (s : State) (v : Byte) : (s.setIr v).ma = s.ma := rfl
@[simp] theorem setIr_carry (s : State) (v : Byte) : (s.setIr v).carry = s.carry := rfl
@[simp] theorem setIr_zero (s : State) (v : Byte) : (s.setIr v).zero = s.zero := rfl
@[simp] theorem setIr_mem (s : State) (v : Byte) : (s.setIr v).mem = s.mem := rfl
@[simp] theorem setIr_step (s : State) (v : Byte) : (s.setIr v).step = s.step := rfl
@[simp] theorem setIr_halted (s : State) (v : Byte) : (s.setIr v).halted = s.halted := rfl
@[simp] theorem setIr_bus (s : State) (v : Byte) : (s.setIr v).bus = s.bus := rfl
@[simp] theorem setIr_sum (s : State) (v : Byte) : (s.setIr v).sum = s.sum := rfl
@[simp] theorem setIr_cw (s : State) (v : Byte) : (s.setIr v).cw = s.cw := rfl

/-- Loading IR with the byte it holds changes nothing. -/
@[simp] theorem setIr_self (s : State) : s.setIr s.ir = s := rfl

@[simp] theorem withFetchWord_step (s : State) (nb w : Nat) : (s.withFetchWord nb w).step = 0 := rfl
@[simp] theorem withFetchWord_halted (s : State) (nb w : Nat) : (s.withFetchWord nb w).halted = false := rfl
@[simp] theorem withFetchWord_pc (s : State) (nb w : Nat) : (s.withFetchWord nb w).pc = s.pc := rfl
@[simp] theorem withFetchWord_a (s : State) (nb w : Nat) : (s.withFetchWord nb w).a = s.a := rfl
@[simp] theorem withFetchWord_b (s : State) (nb w : Nat) : (s.withFetchWord nb w).b = s.b := rfl

section Tick

variable {P : Params} {opc : Nibble} {cw : ControlWord} {m : Byte} {s : State}

/-- A word with the halt flag sets the latch and nothing else. -/
theorem tickDelivering_of_hlt (h : cw.hlt = true) : tickDelivering P opc cw m s = s.halt := by
  simp [tickDelivering, h]

/-- A word with the halt flag sets the latch and nothing else. -/
theorem tickWord_of_hlt (h : cw.hlt = true) : tickWord P opc cw s = s.halt := tickDelivering_of_hlt h

variable (h : cw.hlt = false)
include h

@[simp] theorem tickDelivering_a :
    (tickDelivering P opc cw m s).a = if cw.ai then tickBus cw m s else s.a := by simp [tickDelivering, h]
@[simp] theorem tickDelivering_b :
    (tickDelivering P opc cw m s).b = if cw.bi then tickBus cw m s else s.b := by simp [tickDelivering, h]
@[simp] theorem tickDelivering_out :
    (tickDelivering P opc cw m s).out = if cw.oi then tickBus cw m s else s.out := by simp [tickDelivering, h]
@[simp] theorem tickDelivering_ir :
    (tickDelivering P opc cw m s).ir = if cw.ii then tickBus cw m s else s.ir := by simp [tickDelivering, h]
@[simp] theorem tickDelivering_pc :
    (tickDelivering P opc cw m s).pc =
      if jumpTaken P opc cw s then trunc4 (tickBus cw m s) else pcCounted cw s := by simp [tickDelivering, h]
@[simp] theorem tickDelivering_ma :
    (tickDelivering P opc cw m s).ma = tickMa cw (tickBus cw m s) s := by simp [tickDelivering, h]
@[simp] theorem tickDelivering_carry : (tickDelivering P opc cw m s).carry = tickCarry cw s := by
  simp [tickDelivering, h]
@[simp] theorem tickDelivering_zero : (tickDelivering P opc cw m s).zero = tickZero cw s := by
  simp [tickDelivering, h]
@[simp] theorem tickDelivering_mem :
    (tickDelivering P opc cw m s).mem = tickMem cw (tickBus cw m s) s := by simp [tickDelivering, h]
@[simp] theorem tickDelivering_step : (tickDelivering P opc cw m s).step = s.step + 1 := by simp [tickDelivering, h]
@[simp] theorem tickDelivering_halted : (tickDelivering P opc cw m s).halted = s.halted := by
  simp [tickDelivering, h]
@[simp] theorem tickDelivering_bus : (tickDelivering P opc cw m s).bus = tickBus cw m s := by
  simp [tickDelivering, h]
@[simp] theorem tickDelivering_sum : (tickDelivering P opc cw m s).sum = tickSum cw s := by
  simp [tickDelivering, h]
@[simp] theorem tickDelivering_cw : (tickDelivering P opc cw m s).cw = cwNumber P.cwBits cw := by
  simp [tickDelivering, h]

end Tick

end Sys2Proof.Machine
end

