-- ==== Sys2Proof/Laws/Tick.lean ====
section
/-! SUPPORT. The microcode table by cases, the engine's tick, and the one lemma that says what running an instruction
does: the engine's ticks to the next boundary. -/

namespace Sys2Proof.Machine

/-- Step 0 of every row is fetch. -/
@[simp] theorem defaultMicrocode_zero (opc : Nibble) : defaultMicrocode opc 0 = fetchAddressWord := by
  revert opc; decide +kernel

/-- Step 1 of every row is fetch. -/
@[simp] theorem defaultMicrocode_one (opc : Nibble) : defaultMicrocode opc 1 = fetchLoadWord := by
  revert opc; decide +kernel

/-- The table's row at the opcode of each catalog entry. -/
theorem defaultMicrocode_of_mnemonic (m : Mnemonic) : defaultMicrocode (defaultOpcodeMap m) = rowOfMnemonic m := by
  cases m <;> rfl

/-- No row loads IR after its fetch. -/
theorem defaultMicrocode_ii (opc : Nibble) (st : MicroStep) (h : 2 ≤ st.val) : (defaultMicrocode opc st).ii = false := by
  revert opc st; decide +kernel

/-- The halt flag stands only in step 2 of HLT. -/
theorem defaultMicrocode_hlt (opc : Nibble) (st : MicroStep) :
    (defaultMicrocode opc st).hlt = true ↔ st = 2 ∧ opc = defaultOpcodeMap .hlt := by
  revert opc st; decide +kernel

theorem tick_of_halted {s : State} (h : s.halted = true) : tick s = s := by simp [tick, tickWith, h]

theorem tick_of_running {s : State} (h : s.halted = false) :
    tick s = tickWord defaultParams (opcodeField s.ir) (defaultMicrocode (opcodeField s.ir) s.step) s := by
  simp [tick, tickWith, h, lookup, defaultParams]

@[simp] theorem ticks_zero (s : State) : ticks 0 s = s := rfl

theorem ticks_succ (n : Nat) (s : State) : ticks (n + 1) s = ticks n (tick s) := rfl

theorem ticks_of_halted {s : State} (h : s.halted = true) (n : Nat) : ticks n s = s := by
  induction n with
  | zero => rfl
  | succ n ih => rw [ticks_succ, tick_of_halted h, ih]

theorem ticks_add (m n : Nat) (s : State) : ticks (m + n) s = ticks n (ticks m s) := by
  induction m generalizing s with
  | zero => simp
  | succ m ih => rw [Nat.succ_add, ticks_succ, ticks_succ, ih]

/-- A tick of a row is the engine's tick when the row and opcode are those IR selects. -/
theorem rowTick_eq_tick {opc : Nibble} {row : Row} {s : State} (ho : opcodeField s.ir = opc)
    (hr : defaultMicrocode opc = row) : rowTick opc row s = tick s := by
  subst hr ho
  cases h : s.halted
  · simp [rowTick, h, tick_of_running h]
  · simp [rowTick, h, tick_of_halted h]

/-- Past the fetch a tick leaves IR alone. -/
theorem tick_ir {s : State} (h : 2 ≤ s.step.val) : (tick s).ir = s.ir := by
  cases hh : s.halted
  · rw [tick_of_running hh]
    cases hw : (defaultMicrocode (opcodeField s.ir) s.step).hlt
    · simp [tickWord, hw, defaultMicrocode_ii _ _ h]
    · rw [tickWord_of_hlt hw]; rfl
  · rw [tick_of_halted hh]

/-- A tick that does not wrap the step counter moves it up or leaves it. -/
theorem tick_step_ge {s : State} (h : 2 ≤ s.step.val) (h4 : s.step.val < 4) : 2 ≤ (tick s).step.val := by
  cases hh : s.halted
  · rw [tick_of_running hh]
    cases hw : (defaultMicrocode (opcodeField s.ir) s.step).hlt
    · simp only [tickWord, tickDelivering_step hw, Fin.val_add]
      show 2 ≤ (s.step.val + 1) % 5
      omega
    · rw [tickWord_of_hlt hw]; exact h
  · rw [tick_of_halted hh]; exact h

/-- A tick with the step counter below 4 moves it up by one, or halts. -/
theorem tick_step_of_lt {s : State} (h4 : s.step.val < 4) :
    (tick s).step.val = s.step.val + 1 ∨ (tick s).halted = true := by
  cases hh : s.halted
  · rw [tick_of_running hh]
    cases hw : (defaultMicrocode (opcodeField s.ir) s.step).hlt
    · left
      simp only [tickWord, tickDelivering_step hw, Fin.val_add]
      show (s.step.val + 1) % 5 = s.step.val + 1
      omega
    · right; rw [tickWord_of_hlt hw]; rfl
  · right; rw [tick_of_halted hh]; exact hh

/-- Past the fetch, the ticks of a row up to the end of step 4 are the engine's. -/
theorem rowTicks_eq_ticks {opc : Nibble} {row : Row} (hr : defaultMicrocode opc = row) (n : Nat) :
    ∀ {s : State}, opcodeField s.ir = opc → 2 ≤ s.step.val → s.step.val + n ≤ 5 → rowTicks opc row n s = ticks n s := by
  induction n with
  | zero => intros; rfl
  | succ n ih =>
    intro s ho h2 h5
    rw [rowTicks, rowTick_eq_tick ho hr, ticks_succ]
    cases n with
    | zero => rfl
    | succ n =>
      rcases tick_step_of_lt (s := s) (by omega) with h | h
      · exact ih (by rw [tick_ir h2]; exact ho) (by omega) (by omega)
      · have hfix : ∀ k, rowTicks opc row k (tick s) = tick s := by
          intro k
          induction k with
          | zero => rfl
          | succ k ihk => rw [rowTicks]; simp only [rowTick, h, if_true]; exact ihk
        rw [hfix, ticks_of_halted h]

section Fetch

variable {s : State}

/-- The state after fetch step 1, from a state at step 0 or 1 that does not halt in between. -/
theorem fetchLoad_step (P : Params) (opc : Nibble) (b : Byte) (t : State) :
    (tickDelivering P opc fetchLoadWord b t).step = t.step + 1 := by
  exact tickDelivering_step (by rfl)

theorem fetchLoad_ir (P : Params) (opc : Nibble) (b : Byte) (t : State) :
    (tickDelivering P opc fetchLoadWord b t).ir = b := by
  rw [tickDelivering_ir (by rfl)]; rfl

/-- With the byte that is there, the fetch of an instruction is the engine's ticks up to step 2. -/
theorem fetchInto_eq_ticks (hh : s.halted = false) : fetchInto (currentByte s) s = ticks (2 - s.step.val) s := by
  unfold fetchInto currentByte
  by_cases h0 : s.step = 0
  · have h1 : tick s = tickWord defaultParams (opcodeField s.ir) fetchAddressWord s := by
      rw [tick_of_running hh, h0, defaultMicrocode_zero]
    have hst : (tick s).step = 1 := by rw [h1, tickWord, tickDelivering_step (by rfl), h0]; rfl
    have hhl : (tick s).halted = false := by rw [h1, tickWord, tickDelivering_halted (by rfl), hh]
    have hma : (tick s).ma = s.pc := by
      rw [h1, tickWord, tickDelivering_ma (by rfl)]
      simp [tickMa, fetchAddressWord, tickBus, trunc4, zext8, pcCounted]
    have hmem : (tick s).mem = s.mem := by rw [h1, tickWord, tickDelivering_mem (by rfl)]; rfl
    have h2 : tick (tick s) =
        tickDelivering defaultParams (opcodeField (tick s).ir) fetchLoadWord (memRead s.mem s.pc) (tick s) := by
      rw [tick_of_running hhl, hst, defaultMicrocode_one, tickWord, hma, hmem]
    simp only [h0, if_true]
    rw [← h1, ← h2]
    rfl
  · by_cases h1 : s.step = 1
    · simp only [h1, if_neg (by decide : ¬ (1 : MicroStep) = 0), if_true]
      have : tick s = tickDelivering defaultParams (opcodeField s.ir) fetchLoadWord (memRead s.mem s.ma) s := by
        rw [tick_of_running hh, h1, defaultMicrocode_one, tickWord]
      rw [← this]
      rfl
    · simp only [if_neg h0, if_neg h1, setIr_self]
      have : 2 - s.step.val = 0 := by
        have := s.step.isLt
        have : s.step.val ≠ 0 := fun h => h0 (Fin.ext h)
        have : s.step.val ≠ 1 := fun h => h1 (Fin.ext h)
        omega
      rw [this]; rfl

/-- After the fetch the step counter is past it, and IR holds the byte. -/
theorem fetchInto_step (b : Byte) :
    (fetchInto b s).step.val = if s.step.val < 2 then 2 else s.step.val := by
  unfold fetchInto
  by_cases h0 : s.step = 0
  · simp only [h0, if_true, fetchLoad_step]
    rw [tickWord, tickDelivering_step (by rfl), h0]; rfl
  · by_cases h1 : s.step = 1
    · simp only [h1, if_neg (by decide : ¬ (1 : MicroStep) = 0), if_true, fetchLoad_step]; rfl
    · simp only [if_neg h0, if_neg h1, setIr_step]
      have : s.step.val ≠ 0 := fun h => h0 (Fin.ext h)
      have : s.step.val ≠ 1 := fun h => h1 (Fin.ext h)
      rw [if_neg (by omega)]

@[simp] theorem fetchInto_ir (b : Byte) : (fetchInto b s).ir = b := by
  unfold fetchInto
  by_cases h0 : s.step = 0
  · simp only [h0, if_true, fetchLoad_ir]
  · by_cases h1 : s.step = 1
    · simp only [h1, if_neg (by decide : ¬ (1 : MicroStep) = 0), if_true, fetchLoad_ir]
    · simp only [if_neg h0, if_neg h1, setIr_ir]

/-- The fetch from an instruction boundary: MA takes PC, IR the byte, PC advances (43_data_transfer.md R107). -/
theorem fetchInto_boundary (b : Byte) (h0 : s.step = 0) :
    fetchInto b s = { s with ma := s.pc, pc := s.pc + 1, ir := b, step := 2, bus := b, sum := s.a + s.b,
                             cw := 0x1408 } := by
  have e : cwNumber defaultParams.cwBits fetchLoadWord = 0x1408 := by decide +kernel
  unfold fetchInto
  simp only [h0, if_true]
  simp only [tickDelivering, tickWord, e]
  simp [fetchLoadWord, fetchAddressWord, tickBus, tickMa, tickMem, tickCarry, tickZero, flagAfter, pcCounted, jumpTaken,
    trunc4, zext8, tickSum, alu, aluSum, h0]

end Fetch

/-- What running an instruction does when its byte is the one fetched or under way: the engine's ticks to the next
instruction boundary or the halt (70_reset_and_hazards.md R147). -/
theorem execRow_eq_ticks {opc : Nibble} {row : Row} {byte : Byte} {s : State} (hb : currentByte s = byte)
    (ho : opcodeField byte = opc) (hr : defaultMicrocode opc = row) :
    execRow opc row byte s = .next (ticks (5 - s.step.val) s) := by
  cases hh : s.halted
  · simp only [execRow, hh, Bool.false_eq_true, if_false]
    have hf := fetchInto_eq_ticks hh
    rw [hb] at hf
    have hst := fetchInto_step (s := s) byte
    have hlt := s.step.isLt
    rw [rowTicks_eq_ticks hr _ (by rw [fetchInto_ir]; exact ho) (by rw [hst]; split <;> omega)
      (by rw [hst]; split <;> omega), hst, hf, ← ticks_add]
    congr 2
    split <;> omega
  · simp [execRow, hh, ticks_of_halted hh]

/-- Running an instruction from a boundary: its three execution words on the fetched state. -/
theorem execRow_boundary {opc : Nibble} {row : Row} {byte : Byte} {s : State} (hh : s.halted = false)
    (h0 : s.step = 0) :
    execRow opc row byte s =
      .next (rowTicks opc row 3 { s with ma := s.pc, pc := s.pc + 1, ir := byte, step := 2, bus := byte,
                                         sum := s.a + s.b, cw := 0x1408 }) := by
  simp only [execRow, hh, Bool.false_eq_true, if_false, fetchInto_boundary byte h0]
  rfl

/-- A halted engine runs nothing. -/
theorem execRow_halted {opc : Nibble} {row : Row} {byte : Byte} {s : State} (hh : s.halted = true) :
    execRow opc row byte s = .next s := by simp [execRow, hh]

/-- Every run of an instruction ends in a next state: there is no fault and no refusal (60_exceptions.md R122). -/
theorem execRow_next (opc : Nibble) (row : Row) (byte : Byte) (s : State) : ∃ t, execRow opc row byte s = .next t := by
  unfold execRow
  split <;> exact ⟨_, rfl⟩

/-- What no tick of an instruction changes, the whole run leaves unchanged: a frame is shown word by word. -/
theorem execRow_frame {α : Type} (F : State → α) {opc : Nibble} {row : Row} {byte : Byte} {s t : State}
    (hset : ∀ (s : State) (v : Byte), F (s.setIr v) = F s)
    (hfetch : ∀ (o : Nibble) (m : Byte) (s : State),
      F (tickDelivering defaultParams o fetchAddressWord m s) = F s ∧
      F (tickDelivering defaultParams o fetchLoadWord m s) = F s)
    (hrow : ∀ (st : MicroStep) (s : State), F (tickWord defaultParams opc (row st) s) = F s)
    (h : execRow opc row byte s = .next t) : F t = F s := by
  have hrt : ∀ (n : Nat) (s : State), F (rowTicks opc row n s) = F s := by
    intro n
    induction n with
    | zero => intro s; rfl
    | succ n ih =>
      intro s
      rw [rowTicks, ih, rowTick]
      split
      · rfl
      · exact hrow _ _
  have hfi : F (fetchInto byte s) = F s := by
    unfold fetchInto
    split
    · rw [(hfetch _ _ _).2, tickWord, (hfetch _ _ _).1]
    · split
      · exact (hfetch _ _ _).2
      · exact hset _ _
  unfold execRow at h
  split at h <;> injection h with h <;> subst h
  · rfl
  · rw [hrt, hfi]

end Sys2Proof.Machine
end

