-- ==== Sys2Proof/Tests/Slice0.lean ====
section
/-! SUPPORT. Tests of the model: the well-formedness checks refuse what they should, words written out from
30_encoding.md decode to their instructions, the vectors of 95_test_vectors.md hold, and every statement that has
hypotheses has a state and operands that meet them. -/

namespace Sys2Proof.Tests

open Sys2Proof.Machine

/-- A state at an instruction boundary: A, the flags, PC and the memory cells given, all else as after reset. -/
def stateAt (a : Byte) (carry zero : Bool) (pc : Nibble) (mem : Memory) : State :=
  { State.reset with a := a, carry := carry, zero := zero, pc := pc, mem := mem }

/-- The state one step later. -/
def after (s : State) : State :=
  match Machine.step s with
  | .next t => t
  | .fault _ => State.reset
  | .refused _ => State.reset

/-- Parameters whose table holds one word everywhere. -/
def tableOfWord (cw : ControlWord) : Params := { defaultParams with microcode := fun _ _ => cw }

/-! ## Well-formedness: each check refuses an ill-formed term -/

theorem test_wf_two_sources_refused : ({ ro := true, io := true } : ControlWord).singleSource = false := by decide
theorem test_wf_table_refused : (tableOfWord { ao := true, co := true }).tableOk = false := by decide
theorem test_wf_default_table_accepted : defaultParams.tableOk = true := by decide +kernel
theorem test_wf_maps_refused : ({ defaultParams with opcodeMap := fun _ => 0 } : Params).mapsOk = false := by decide
theorem test_wf_bits_refused : ({ defaultParams with cwBits := fun _ => 0 } : Params).mapsOk = false := by decide
theorem test_wf_default_maps_accepted : defaultParams.mapsOk = true := by decide +kernel
theorem test_wf_short_image_refused : imageOk (List.replicate 15 0) = false := by decide
theorem test_wf_operand_refused : (SourceLine.ins .lda (some 16)).wf = false := by decide
theorem test_wf_data_byte_refused : (SourceLine.db 256).wf = false := by decide
theorem test_wf_long_program_refused : programWf (List.replicate 17 (.db 0)) = false := by decide
theorem test_wf_memory_refused :
    Memory.wf [(3, 1), (2, 1)] = false ∧ Memory.wf [(16, 1)] = false ∧ Memory.wf [(1, 0)] = false := by decide

/-! ## Words written out bit by bit from R60 and R63 -/

theorem test_decode_lda : decode [0b00011110] = .ok (.lda 14, []) := by decide
theorem test_decode_add : decode [0b00101110] = .ok (.add 14, []) := by decide
theorem test_decode_sub : decode [0b00111101] = .ok (.sub 13, []) := by decide
theorem test_decode_sta : decode [0b01001111] = .ok (.sta 15, []) := by decide
theorem test_decode_ldi : decode [0b01011001] = .ok (.ldi 9, []) := by decide
theorem test_decode_jmp : decode [0b01100011] = .ok (.jmp 3, []) := by decide
theorem test_decode_jc : decode [0b01111001] = .ok (.jc 9, []) := by decide
theorem test_decode_jz : decode [0b10000101] = .ok (.jz 5, []) := by decide
theorem test_decode_nop : decode [0b00000000] = .ok (.nop 0, []) := by decide
theorem test_decode_unassigned9 : decode [0b10010110] = .ok (.unassigned9 6, []) := by decide
theorem test_decode_unassignedA : decode [0b10100111] = .ok (.unassignedA 7, []) := by decide
theorem test_decode_unassignedB : decode [0b10111000] = .ok (.unassignedB 8, []) := by decide
theorem test_decode_unassignedC : decode [0b11000001] = .ok (.unassignedC 1, []) := by decide
theorem test_decode_unassignedD : decode [0b11011111] = .ok (.unassignedD 15, []) := by decide
theorem test_decode_out : decode [0b11101001, 0x00] = .ok (.out 9, [0x00]) := by decide
theorem test_decode_hlt : decode [0b11110000] = .ok (.hlt 0, []) := by decide
theorem test_decode_no_byte : decode [] = .error .noByte := by decide
theorem test_decode_long_word : decodeTableWord 16 0 = none := by decide

/-- Program P2 of 95_test_vectors.md, assembled by R71 and R72, is the image the spec prints. -/
theorem test_assemble_p2 :
    assemble [.ins .ldi (some 3), .ins .out none, .ins .sub (some 15), .ins .jz (some 5), .ins .jmp (some 1),
              .ins .out none, .ins .hlt none, .db 0, .db 0, .db 0, .db 0, .db 0, .db 0, .db 0, .db 0, .db 1]
      = .ok [0x53, 0xE0, 0x3F, 0x85, 0x61, 0xE0, 0xF0, 0, 0, 0, 0, 0, 0, 0, 0, 0x01] := by decide
theorem test_assemble_refuses_operand : assemble [.ins .jmp (some 16)] = .error .valueOutOfRange := by decide

/-! ## The vectors of 95_test_vectors.md, each one step (or one tick) -/

theorem test_alu_add_wraps : alu 0xFF 0x01 false = (0x00, true) := by decide  -- V-ALU-2
theorem test_alu_borrow : alu 0x03 0x05 true = (0xFE, true) := by decide  -- V-ALU-6
theorem test_trunc4 : trunc4 0xAB = 0xB := by decide  -- V-T-1

/-- V-LDA-3: LDA 0 at 15, PC wraps. -/
theorem test_lda_wraps : let t := after (stateAt 0 false false 15 [(0, 0x99), (15, 0x10)])
    t.a = 0x99 ∧ t.pc = 0 ∧ t.ma = 0 := by decide
/-- V-LDA-2: LDA 5 at 5 loads its own byte. -/
theorem test_lda_own_byte : (after (stateAt 0 false false 5 [(5, 0x15)])).a = 0x15 := by decide
/-- V-STA-2: STA 3 at 3 overwrites its own byte. -/
theorem test_sta_own_byte : let t := after (stateAt 0xAB false false 3 [(3, 0x43)])
    t.mem = [(3, 0xAB)] ∧ t.pc = 4 ∧ t.ma = 3 ∧ t.ir = 0x43 := by decide
/-- STA of zero takes the entry's cell out: the canonical form. -/
theorem test_sta_zero : (after (stateAt 0 false false 0 [(0, 0x4F), (15, 0x07)])).mem = [(0, 0x4F)] := by decide
/-- V-LDI-1: LDI 0 does not set Zero. -/
theorem test_ldi_zero : let t := after (stateAt 0xFF false false 0 [(0, 0x50)])
    t.a = 0 ∧ t.zero = false ∧ t.ma = 0 := by decide
/-- V-OUT-2: OUT with operand 9. -/
theorem test_out_operand : let t := after (stateAt 0x80 false false 0 [(0, 0xE9)])
    t.out = 0x80 ∧ t.a = 0x80 ∧ t.pc = 1 := by decide
/-- V-ADD-2: carry and zero together. -/
theorem test_add_carry_zero : let t := after (stateAt 0xFF false false 0 [(0, 0x2E), (14, 0x01)])
    t.a = 0 ∧ t.b = 1 ∧ t.carry = true ∧ t.zero = true ∧ t.ma = 14 := by decide
/-- V-ADD-6: the old flags are overwritten. -/
theorem test_add_overwrites_flags : let t := after (stateAt 0x01 true true 0 [(0, 0x2E), (14, 0x01)])
    t.a = 2 ∧ t.carry = false ∧ t.zero = false := by decide
/-- V-SUB-2: a borrow sets Carry. -/
theorem test_sub_borrow : let t := after (stateAt 0x03 false false 0 [(0, 0x3D), (13, 0x05)])
    t.a = 0xFE ∧ t.b = 5 ∧ t.carry = true ∧ t.zero = false := by decide
/-- V-SUB-3: equal operands set Zero and not Carry. -/
theorem test_sub_equal : let t := after (stateAt 0x07 false false 0 [(0, 0x3D), (13, 0x07)])
    t.a = 0 ∧ t.carry = false ∧ t.zero = true := by decide
/-- V-NOP-2: NOP at 15, PC wraps. -/
theorem test_nop_wraps : let t := after (stateAt 0 false false 15 [])
    t.pc = 0 ∧ t.ma = 15 ∧ t.step = 0 := by decide
/-- V-UNA-1: byte A7 at 2. -/
theorem test_unassigned : let t := after (stateAt 0x33 false false 2 [(2, 0xA7)])
    t.pc = 3 ∧ t.ma = 2 ∧ t.a = 0x33 ∧ t.ir = 0xA7 := by decide
/-- V-JMP-2: JMP 6 at 6. -/
theorem test_jmp_self : (after (stateAt 0 false false 6 [(6, 0x66)])).pc = 6 := by decide
/-- V-JC-3: JC 3 at 15, not taken, PC wraps. -/
theorem test_jc_not_taken : let t := after (stateAt 0 false true 15 [(15, 0x73)]); t.pc = 0 ∧ t.ma = 15 := by decide
/-- V-JC-2: JC 9 at 4, taken; Carry stays. -/
theorem test_jc_taken : let t := after (stateAt 0 true false 4 [(4, 0x79)]); t.pc = 9 ∧ t.carry = true := by decide
/-- V-JZ-1: JZ 5 at 4 with Carry set and Zero clear, not taken, here with target 9. -/
theorem test_jz_not_taken : (after (stateAt 0 true false 4 [(4, 0x89)])).pc = 5 := by decide
/-- V-JZ-3: JZ 9 at 4, taken. -/
theorem test_jz_taken : (after (stateAt 0 false true 4 [(4, 0x89)])).pc = 9 := by decide
/-- V-HLT-2: HLT at 15. -/
theorem test_hlt : let t := after (stateAt 0 false false 15 [(15, 0xF0)])
    t.halted = true ∧ t.step = 2 ∧ t.pc = 0 ∧ t.ma = 15 := by decide
/-- V-ENG-2, tick 3: the snapshot fields keep tick 2's values. -/
theorem test_hlt_snapshot : let t := after (stateAt 0 false false 0 [(0, 0xF0)])
    t.cw = 0x1408 ∧ t.bus = 0xF0 := by decide
/-- V-ENG-1, tick 1. -/
theorem test_first_tick : let t := tick (stateAt 0x90 false false 0 [(0, 0x2E), (14, 0x90)])
    t.cw = 0x4004 ∧ t.bus = 0 ∧ t.sum = 0x90 ∧ t.step = 1 := by decide
/-- Log entries 21 and 22: the choices as they stand, not the spec's words. -/
theorem test_snapshot_before_any_tick : (heldView State.reset).step = 4 := by decide
theorem test_repeating_maps_accepted :
    configure { defaultParams with opcodeMap := fun _ => 0 } (List.replicate 16 0) = .next State.reset := rfl
/-- The host's two questions on one word: LDI 9 decodes, and runs as the first instruction after reset. -/
theorem test_first_instruction : decodeTableWord 8 0x59 = some (.ldi 9) ∧
    (after (State.reset.withFetchWord 8 0x59)).a = 9 := by decide

/-! ## Witnesses: the hypotheses of each statement can be met -/

theorem witness_DecoderFollowsOpcodeTable :
    0x0F#8 &&& 0xF0 = 0x00 ∧ 0x1F#8 &&& 0xF0 = 0x10 ∧ 0x2F#8 &&& 0xF0 = 0x20 ∧ 0x3F#8 &&& 0xF0 = 0x30 ∧
    0x4F#8 &&& 0xF0 = 0x40 ∧ 0x5F#8 &&& 0xF0 = 0x50 ∧ 0x6F#8 &&& 0xF0 = 0x60 ∧ 0x7F#8 &&& 0xF0 = 0x70 ∧
    0x8F#8 &&& 0xF0 = 0x80 ∧ 0x9F#8 &&& 0xF0 = 0x90 ∧ 0xAF#8 &&& 0xF0 = 0xA0 ∧ 0xBF#8 &&& 0xF0 = 0xB0 ∧
    0xCF#8 &&& 0xF0 = 0xC0 ∧ 0xDF#8 &&& 0xF0 = 0xD0 ∧ 0xEF#8 &&& 0xF0 = 0xE0 ∧ 0xFF#8 &&& 0xF0 = 0xF0 := by decide
theorem witness_AssemblerAcceptsWellFormedPrograms :
    programWf [.ins .lda none, .db 255] = true ∧ ∃ image, assemble (List.replicate 16 (.db 255)) = .ok image :=
  ⟨by decide, _, rfl⟩
theorem witness_AssemblerPlacesLinesInOrder :
    ∃ image, assemble [.ins .hlt none, .ins .lda (some 15), .db 255] = .ok image ∧
      image[1]? = some 0x1F ∧ image[2]? = some 0xFF ∧ image[15]? = some 0 := ⟨_, rfl, rfl, rfl, rfl⟩
theorem witness_AluAddsAndSubtractsModulo256 : (0x07#8).toNat = 7 ∧ (0xFF#8).toNat > (0x00#8).toNat := by decide
theorem witness_TruncationKeepsLowFourBits :
    (let cw : ControlWord := { mi := true, j := true }
     cw.hlt = false ∧ cw.mi = true ∧ cw.j = true) ∧
    (0x6#4 ≠ defaultParams.opcodeMap .jc ∧ 0x6#4 ≠ defaultParams.opcodeMap .jz) ∧
    (let cw : ControlWord := { ce := true }; cw.hlt = false ∧ cw.ce = true ∧ cw.j = false) := by decide
theorem witness_HaltFlagEndsTheTick : ({ hlt := true, ce := true, fi := true } : ControlWord).hlt = true := rfl
theorem witness_CounterEnableIncrementsPc :
    (tickWord defaultParams 0 { ce := true } (stateAt 0 false false 15 [])).pc = 0 ∧
    (tickWord defaultParams 0 {} (stateAt 0 false false 15 [])).pc = 15 := by decide
theorem witness_FlagsInOverwritesBothFlags :
    (tickWord defaultParams 0 { fi := true } (stateAt 1 true true 0 [])).zero = false ∧
    (tickWord defaultParams 0 {} (stateAt 1 true true 0 [])).zero = true ∧
    (tickWord defaultParams 0 { fi := true, hlt := true } (stateAt 1 true true 0 [])).zero = true := by decide
theorem witness_LastListedBusSourceWins :
    let s := { stateAt 0x11 false false 7 [(2, 0x22)] with b := 0x20, ma := 2, ir := 0x9E }
    (tickWord defaultParams 0 { ro := true, io := true, ao := true, eo := true, co := true } s).bus = 7 ∧
    (tickWord defaultParams 0 { ro := true, io := true, ao := true, eo := true } s).bus = 0x31 ∧
    (tickWord defaultParams 0 { ro := true, io := true, ao := true } s).bus = 0x11 ∧
    (tickWord defaultParams 0 { ro := true, io := true } s).bus = 0x0E ∧
    (tickWord defaultParams 0 { ro := true } s).bus = 0x22 ∧
    (tickWord defaultParams 0 {} s).bus = 0 := by decide
theorem witness_SinksTakeTheBus :
    let t := tickWord defaultParams 0 { co := true, mi := true, ri := true, bi := true } (stateAt 0 false false 7 [])
    t.ma = 7 ∧ t.mem = [(7, 7)] ∧ t.b = 7 := by decide
theorem witness_JumpResolution :
    let s := { stateAt 0 true false 4 [] with ir := 0x79 }
    (tickWord defaultParams 0x6 { io := true, j := true } s).pc = 9 ∧
    (tickWord defaultParams 0x7 { io := true, j := true } s).pc = 9 ∧
    (tickWord defaultParams 0x8 { io := true, j := true } s).pc = 4 ∧
    (tickWord { defaultParams with opcodeMap := fun _ => 0x7 } 0x7 { io := true, j := true }
      { s with carry := false, zero := true }).pc = 9 := by decide
theorem witness_StepAdvancesModulo5 : (tickWord defaultParams 0 {} { State.reset with step := 4 }).step = 0 := by
  decide
theorem witness_IntraTickOrders :
    let s := { stateAt 3 false false 4 [(2, 0x22)] with ma := 2, ir := 0x85 }
    let c := { s with a := 0xFF, b := 1, ir := 0x75 }
    let loads : Params := tableOfWord { ro := true, ii := true, j := true }
    let jcByte := { s with mem := [(2, 0x7C)] }
    (tickWith (tableOfWord { ce := true, co := true }) s).bus = 5 ∧
    (tickWith (tableOfWord { ro := true, mi := true }) s).bus = 0x22 ∧
    memRead (tickWith (tableOfWord { io := true, mi := true, ri := true }) s).mem 5 = 5 ∧
    (tickWith (tableOfWord { io := true, j := true, ce := true }) { s with ir := 0x69 }).pc = 9 ∧
    (tickWith loads jcByte).pc = 4 ∧ (tickWith loads { jcByte with zero := true }).pc = 0xC ∧
    (tickWith loads { jcByte with ir := 0x69 }).pc = 0xC ∧ (tickWith loads { jcByte with ir := 0x75 }).pc = 4 ∧
    (tickWith (tableOfWord { io := true, fi := true, j := true }) c).pc = 5 ∧
    (tickWith (tableOfWord { io := true, fi := true, j := true }) { c with ir := 0x85 }).pc = 5 ∧
    (tickWith (tableOfWord { io := true, fi := true, j := true }) s).pc = 4 := by decide
theorem witness_MicrocodeTableWords :
    (let s := { State.reset with step := 4, ir := 0x2E }; s.halted = false ∧ (tick s).cw = 0x0281) ∧
    (let s := { State.reset with step := 2, ir := 0xF0 }; s.halted = false ∧ (tick s).halted = true) := by decide
theorem witness_EveryRowBeginsWithFetch :
    (State.reset.halted = false ∧ State.reset.step = 0) ∧
    (({ State.reset with step := 1 } : State).halted = false ∧ ({ State.reset with step := 1 } : State).step = 1) := by
  decide
theorem witness_TablesWithTwoSourcesAreRefused :
    ((tableOfWord { ro := true, eo := true }).microcode 0 0).singleSource = false ∧
    ((tableOfWord { ro := true }).microcode 15 4).singleSource = true := by decide
theorem witness_UnassignedOpcodesAreNoOpsUnderEveryMap :
    (∀ m ∈ Mnemonic.all, defaultOpcodeMap m ≠ 0x9) ∧ (Mnemonic.all.map defaultOpcodeMap).Nodup := by decide
theorem witness_SetupTakesExactlySixteenBytes :
    (List.replicate 15 (0 : Byte)).length ≠ 16 ∧ (List.replicate 17 (0 : Byte)).length ≠ 16 := by decide
theorem witness_CanonicalMemoriesAreExtensional : Memory.wf [(0, 0x51), (15, 0x01)] = true := by decide

/-- The hypothesis of every result statement, of StoreIsSeenByTheNextFetch and of EffectsLandOnTheirTicks. -/
theorem witness_AtBoundary : AtBoundary (stateAt 0x90 true false 15 [(14, 0x90), (15, 0x2E)]) := ⟨rfl, rfl⟩
theorem witness_LdaLoadsTheEntry : AtBoundary (stateAt 0x11 false false 0 [(0, 0x1E), (14, 0x2A)]) := ⟨rfl, rfl⟩
theorem witness_StaStoresTheAccumulator : AtBoundary (stateAt 0x07 false false 0 [(0, 0x4F)]) := ⟨rfl, rfl⟩
theorem witness_LdiLoadsTheOperand : AtBoundary (stateAt 0xFF false false 0 [(0, 0x50)]) := ⟨rfl, rfl⟩
theorem witness_OutWritesTheOutputRegister : AtBoundary (stateAt 0x0D false false 0 [(0, 0xE0)]) := ⟨rfl, rfl⟩
theorem witness_AddAddsTheEntry : AtBoundary (stateAt 0x90 false false 0 [(0, 0x2E), (14, 0x90)]) := ⟨rfl, rfl⟩
theorem witness_SubSubtractsTheEntry : AtBoundary (stateAt 0x03 false false 0 [(0, 0x3D), (13, 0x05)]) := ⟨rfl, rfl⟩
theorem witness_NopOnlyAdvances : AtBoundary (stateAt 0 false false 15 []) := ⟨rfl, rfl⟩
theorem witness_JmpJumps : AtBoundary (stateAt 0 false false 0 [(0, 0x63)]) := ⟨rfl, rfl⟩
theorem witness_JcJumpsOnCarry :
    AtBoundary (stateAt 0 true false 4 [(4, 0x79)]) ∧ AtBoundary (stateAt 0 false true 4 [(4, 0x79)]) :=
  ⟨⟨rfl, rfl⟩, ⟨rfl, rfl⟩⟩
theorem witness_JzJumpsOnZero :
    AtBoundary (stateAt 0 false true 4 [(4, 0x89)]) ∧ AtBoundary (stateAt 0 true false 4 [(4, 0x89)]) :=
  ⟨⟨rfl, rfl⟩, ⟨rfl, rfl⟩⟩
theorem witness_HltHaltsAtStepTwo : AtBoundary (stateAt 0x42 false false 0 [(0, 0xF0)]) := ⟨rfl, rfl⟩
theorem witness_UnassignedOpcodesBehaveAsNop : AtBoundary (stateAt 0x33 false false 2 [(2, 0xA7)]) := ⟨rfl, rfl⟩

theorem witness_RegistersOnlyWrittenByTheirInstructions :
    (∃ t, exec (.jmp 3) State.reset = .next t) ∧
    (Instr.jmp 3).opcode ∉ [0x1#4, 0x2#4, 0x3#4, 0x5#4] ∧ (Instr.jmp 3).opcode ∉ [0x2#4, 0x3#4] ∧
    (Instr.jmp 3).opcode ≠ 0xE#4 ∧ (Instr.jmp 3).opcode ≠ 0xF#4 := ⟨⟨_, rfl⟩, by decide⟩
theorem witness_FlagsOnlyWrittenByAddAndSub :
    (∃ t, exec (.lda 3) State.reset = .next t) ∧ (∀ n, Instr.lda 3 ≠ .add n) ∧ (∀ n, Instr.lda 3 ≠ .sub n) :=
  ⟨⟨_, rfl⟩, by decide, by decide⟩
theorem witness_MemoryOnlyWrittenBySta :
    (∃ t, exec (.lda 3) State.reset = .next t) ∧ (∀ n, Instr.lda 3 ≠ .sta n) ∧
    (∃ t, exec (.sta 3) { State.reset with step := 2 } = .next t) ∧
    (∃ t, exec (.sta 3) { State.reset with step := 3 } = .next t) ∧
    (∃ t, exec (.sta 3) { State.reset with step := 4 } = .next t) :=
  ⟨⟨_, rfl⟩, by decide, ⟨_, rfl⟩, ⟨_, rfl⟩, ⟨_, rfl⟩⟩
theorem witness_IgnoredOperandBitsHaveNoEffect :
    Instr.hlt ∈ [Instr.nop, Instr.unassigned9, Instr.unassignedA, Instr.unassignedB, Instr.unassignedC,
      Instr.unassignedD, Instr.out, Instr.hlt] ∧
    (∃ t, exec (.hlt 0) State.reset = .next t) ∧ (∃ u, exec (.hlt 15) State.reset = .next u) ∧
    (∀ n, Instr.out 9 ≠ .hlt n) ∧ 2 ≤ ({ State.reset with step := 2 } : State).step.val ∧ State.reset.halted = false :=
  ⟨by simp, ⟨_, rfl⟩, ⟨_, rfl⟩, by decide, by decide, rfl⟩
theorem witness_StoreIsSeenByTheNextFetch :
    AtBoundary (stateAt 0x5C false false 15 [(15, 0x40)]) ∧
    (∃ t, exec (.sta 0) (stateAt 0x5C false false 15 [(15, 0x40)]) = .next t) ∧
    ∃ t, exec (.sta 15) (stateAt 0x5C false false 15 [(15, 0x4F)]) = .next t ∧
      ∃ u : State, u.step = 0 ∧ u.pc = 15 ∧ u.mem = t.mem :=
  ⟨⟨rfl, rfl⟩, ⟨_, rfl⟩, _, rfl, ⟨{ State.reset with pc := 15, mem := _ }, rfl, rfl, rfl⟩⟩
theorem witness_StepRunsTheDecodedInstruction :
    (let s := stateAt 0 false false 2 [(2, 0x59)]; s.step = 0 ∧ memRead s.mem s.pc = encode (.ldi 9)) ∧
    (let s := { stateAt 0 false false 2 [(2, 0x59)] with step := 1, ma := 2 }
     s.step = 1 ∧ memRead s.mem s.ma = encode (.ldi 9)) ∧
    (let s := { State.reset with step := 4, ir := 0x59 }; 2 ≤ s.step.val ∧ s.ir = encode (.ldi 9)) := by decide
theorem witness_TicksPerInstruction :
    (AtBoundary (stateAt 0 false false 0 []) ∧
      opcodeField (memRead (stateAt 0 false false 0 []).mem 0) ≠ 0xF) ∧
    (AtBoundary (stateAt 0 false false 0 [(0, 0xF0)]) ∧
      opcodeField (memRead (stateAt 0 false false 0 [(0, 0xF0)]).mem 0) = 0xF) :=
  ⟨⟨⟨rfl, rfl⟩, by decide⟩, ⟨⟨rfl, rfl⟩, by decide⟩⟩
theorem witness_RunHaltsOnTick5kPlus3 :
    AtBoundary (stateAt 0 false false 0 [(1, 0xF0)]) ∧
    ∃ t, Sys2Proof.core.run 1 (stateAt 0 false false 0 [(1, 0xF0)]) = .next t ∧ t.halted = false ∧
      opcodeField (memRead t.mem t.pc) = 0xF := ⟨⟨rfl, rfl⟩, _, rfl, rfl, rfl⟩
theorem witness_EffectsLandOnTheirTicks :
    let byteAt0 (b : Byte) : State := stateAt 1 true true 0 [(0, b)]
    memRead (byteAt0 0x63).mem (byteAt0 0x63).pc = encode (.jmp 3) ∧
    memRead (byteAt0 0x73).mem (byteAt0 0x73).pc = encode (.jc 3) ∧
    memRead (byteAt0 0x83).mem (byteAt0 0x83).pc = encode (.jz 3) ∧
    memRead (byteAt0 0x13).mem (byteAt0 0x13).pc = encode (.lda 3) ∧
    memRead (byteAt0 0x43).mem (byteAt0 0x43).pc = encode (.sta 3) ∧
    memRead (byteAt0 0x53).mem (byteAt0 0x53).pc = encode (.ldi 3) ∧
    memRead (byteAt0 0xE3).mem (byteAt0 0xE3).pc = encode (.out 3) ∧
    memRead (byteAt0 0x23).mem (byteAt0 0x23).pc = encode (.add 3) ∧
    memRead (byteAt0 0x33).mem (byteAt0 0x33).pc = encode (.sub 3) := by decide
theorem witness_OnlyHltHalts :
    let s := { State.reset with step := 2, ir := 0xFA }
    s.halted = false ∧ s.step = 2 ∧ opcodeField s.ir = 0xF := by decide
theorem witness_HaltedStateIsTerminal : ({ State.reset with halted := true } : State).halted = true := rfl

/-- The hypotheses of the invariant statements: a state in the middle of ADD 14 meets the invariant, and steps. -/
theorem witness_EveryStepKeepsTheInvariant :
    let s : State := { stateAt 0x90 false false 1 [(0, 0x2E), (14, 0x90)] with
      b := 0x90, ma := 14, ir := 0x2E, step := 4, bus := 0x90, sum := 0x90, cw := 0x1020 }
    EngineInv s ∧ ∃ t, Machine.step s = .next t :=
  ⟨⟨by decide, by decide, by decide, by decide, by decide, by decide, by decide⟩, ⟨_, rfl⟩⟩
theorem witness_EveryTickKeepsTheInvariant : EngineInv State.reset :=
  ⟨by decide, by decide, by decide, by decide, by decide, by decide, by decide⟩
theorem witness_ObserverSeesEveryCompletedTick :
    ({ State.reset with halted := true } : State).halted = true ∧
    (lookup defaultParams { State.reset with step := 2, ir := 0xF0 }).hlt = true ∧
    State.reset.halted = false ∧ (lookup defaultParams State.reset).hlt = false := by decide
theorem witness_HeldSnapshotIsTheLastEmission :
    emission defaultParams State.reset ≠ none ∧
    emission defaultParams { State.reset with step := 2, ir := 0xF0 } = none := by decide
theorem witness_OutputSnapshotAndBitPositionsAreNeverRead :
    AlikeForTheEngine State.reset { State.reset with out := 0x55, bus := 0xAA, sum := 0x0F, cw := 0xFFFF } ∧
    defaultParams.opcodeMap = ({ defaultParams with cwBits := fun _ => 0 } : Params).opcodeMap ∧
    defaultParams.microcode = ({ defaultParams with cwBits := fun _ => 0 } : Params).microcode :=
  ⟨⟨rfl, rfl, rfl, rfl, rfl, rfl, rfl, rfl, rfl, rfl⟩, rfl, rfl⟩

end Sys2Proof.Tests
end

section
/-! PROOFS of the statements on the machine's state (10_state.md). First the facts about the table, the engine's tick
and `exec` that they share, then each statement's own lemmas and its proof. -/

namespace Sys2Proof.Machine

/-! ## The microcode table: which rows set a flag -/

/-- Only the rows of LDA, ADD, SUB and LDI write A. -/
theorem defaultMicrocode_ai {opc : Nibble} (st : MicroStep) (h : opc ∉ [0x1#4, 0x2#4, 0x3#4, 0x5#4]) :
    (defaultMicrocode opc st).ai = false := by
  revert opc st; decide +kernel

/-- Only the rows of ADD and SUB write B. -/
theorem defaultMicrocode_bi {opc : Nibble} (st : MicroStep) (h : opc ∉ [0x2#4, 0x3#4]) :
    (defaultMicrocode opc st).bi = false := by
  revert opc st; decide +kernel

/-- Only the row of OUT writes the Output register. -/
theorem defaultMicrocode_oi {opc : Nibble} (st : MicroStep) (h : opc ≠ 0xE#4) :
    (defaultMicrocode opc st).oi = false := by
  revert opc st; decide +kernel

/-- Only the rows of ADD and SUB compute the flags. -/
theorem defaultMicrocode_fi {opc : Nibble} (st : MicroStep) (h : opc ∉ [0x2#4, 0x3#4]) :
    (defaultMicrocode opc st).fi = false := by
  revert opc st; decide +kernel

/-- No row writes MA in its last two steps. -/
theorem defaultMicrocode_mi (opc : Nibble) {st : MicroStep} (h : 3 ≤ st.val) : (defaultMicrocode opc st).mi = false := by
  revert opc st; decide +kernel

/-- Step 2 of an instruction that reaches memory: MA takes the operand. -/
theorem defaultMicrocode_two_of_reachesMemory {opc : Nibble} (h : reachesMemory opc = true) :
    defaultMicrocode opc 2 = { io := true, mi := true } := by
  revert opc; decide +kernel

/-- Step 3 of ADD and SUB: B takes the entry at MA. -/
theorem defaultMicrocode_three_of_usesAlu {opc : Nibble} (h : usesAlu opc = true) :
    defaultMicrocode opc 3 = { ro := true, bi := true } := by
  revert opc; decide +kernel

/-- Step 4 of every row leaves B and memory alone. -/
theorem defaultMicrocode_four (opc : Nibble) :
    (defaultMicrocode opc 4).bi = false ∧ (defaultMicrocode opc 4).ri = false := by
  revert opc; decide +kernel

/-! ## What a tick leaves alone when its word does not set the flag, also on the halting tick -/

section Unset

variable {P : Params} {opc : Nibble} {cw : ControlWord} {m : Byte} {s : State}

theorem tickDelivering_a_of_unset (h : cw.ai = false) : (tickDelivering P opc cw m s).a = s.a := by
  cases hw : cw.hlt
  · simp [hw, h]
  · rw [tickDelivering_of_hlt hw, halt_a]

theorem tickDelivering_b_of_unset (h : cw.bi = false) : (tickDelivering P opc cw m s).b = s.b := by
  cases hw : cw.hlt
  · simp [hw, h]
  · rw [tickDelivering_of_hlt hw, halt_b]

theorem tickDelivering_out_of_unset (h : cw.oi = false) : (tickDelivering P opc cw m s).out = s.out := by
  cases hw : cw.hlt
  · simp [hw, h]
  · rw [tickDelivering_of_hlt hw, halt_out]

theorem tickDelivering_carry_of_unset (h : cw.fi = false) : (tickDelivering P opc cw m s).carry = s.carry := by
  cases hw : cw.hlt
  · simp [hw, h, tickCarry, flagAfter]
  · rw [tickDelivering_of_hlt hw, halt_carry]

theorem tickDelivering_zero_of_unset (h : cw.fi = false) : (tickDelivering P opc cw m s).zero = s.zero := by
  cases hw : cw.hlt
  · simp [hw, h, tickZero, flagAfter]
  · rw [tickDelivering_of_hlt hw, halt_zero]

end Unset

/-! ## The engine's tick under any parameters -/

theorem tickWith_of_halted (P : Params) {s : State} (h : s.halted = true) : tickWith P s = s := by
  simp [tickWith, h]

theorem tickWith_of_running (P : Params) {s : State} (h : s.halted = false) :
    tickWith P s = tickWord P (opcodeField s.ir) (lookup P s) s := by simp [tickWith, h]

/-- The halting tick sets the latch and nothing else (42_cycle_engine.md R90). -/
theorem tickWith_of_hlt {P : Params} {s : State} (h : s.halted = false) (hw : (lookup P s).hlt = true) :
    tickWith P s = s.halt := by
  rw [tickWith_of_running P h, tickWord_of_hlt hw]

theorem lookup_defaultParams (s : State) : lookup defaultParams s = defaultMicrocode (opcodeField s.ir) s.step := rfl

/-- Fetch step 0 as a whole state: MA takes PC (41_microcode.md R82). -/
theorem tick_of_step_zero {s : State} (hr : s.halted = false) (h0 : s.step = 0) :
    tick s = { s with ma := s.pc, step := 1, bus := zext8 s.pc, sum := s.a + s.b, cw := 0x4004 } := by
  have e : cwNumber defaultParams.cwBits fetchAddressWord = 0x4004 := by decide +kernel
  rw [tick_of_running hr, h0, defaultMicrocode_zero]
  simp only [tickWord, tickDelivering, e]
  simp [fetchAddressWord, tickBus, tickMa, tickMem, tickCarry, tickZero, flagAfter, pcCounted, jumpTaken, trunc4, zext8,
    tickSum, alu, aluSum, h0]

/-- Fetch step 1 as a whole state: IR takes the entry at MA, PC advances (41_microcode.md R82). -/
theorem tick_of_step_one {s : State} (hr : s.halted = false) (h1 : s.step = 1) :
    tick s = { s with ir := memRead s.mem s.ma, pc := s.pc + 1, step := 2, bus := memRead s.mem s.ma,
                      sum := s.a + s.b, cw := 0x1408 } := by
  have e : cwNumber defaultParams.cwBits fetchLoadWord = 0x1408 := by decide +kernel
  rw [tick_of_running hr, h1, defaultMicrocode_one]
  simp only [tickWord, tickDelivering, e]
  simp [fetchLoadWord, tickBus, tickMa, tickMem, tickCarry, tickZero, flagAfter, pcCounted, jumpTaken,
    tickSum, alu, aluSum, h1]

/-- A micro-step that is no fetch step is one of the last three. -/
theorem two_le_of_ne_zero_of_ne_one {st : MicroStep} (h0 : st ≠ 0) (h1 : st ≠ 1) : 2 ≤ st.val := by
  revert st; decide

/-- Past the fetch, the next micro-step is neither of those that follow a fetch tick. -/
theorem add_one_ne_of_two_le {st : MicroStep} (h : 2 ≤ st.val) : st + 1 ≠ 1 ∧ st + 1 ≠ 2 := by
  revert st; decide

theorem eq_three_or_four_of_add_one {st : MicroStep} (h : st + 1 = 4 ∨ st + 1 = 0) : st = 3 ∨ st = 4 := by
  revert st; decide

/-! ## Running an instruction -/

/-- The encoder is undone by the decoder. -/
@[simp] theorem decodeByte_encode (i : Instr) : decodeByte (encode i) = i := by
  rw [encode, decodeByte_packByte]
  cases i <;> rfl

/-- The decoder is undone by the encoder. -/
@[simp] theorem encode_decodeByte (b : Byte) : encode (decodeByte b) = b := by simp [encode]

/-- Each instruction runs its opcode's row of the microcode table on its own byte. -/
theorem exec_eq_execRow (i : Instr) (s : State) :
    exec i s = execRow i.opcode (defaultMicrocode i.opcode) (encode i) s := by
  cases i <;> rfl

/-- An instruction whose byte is the one fetched or under way runs as the engine's ticks to the next boundary. -/
theorem exec_eq_ticks {i : Instr} {s : State} (h : currentByte s = encode i) :
    exec i s = .next (ticks (5 - s.step.val) s) := by
  rw [exec_eq_execRow]
  exact execRow_eq_ticks h (opcodeField_encode i) rfl

/-- A step is the engine's ticks to the next boundary. -/
theorem step_eq_ticks (s : State) : Machine.step s = .next (ticks (5 - s.step.val) s) :=
  exec_eq_ticks (encode_decodeByte _).symm

/-- A field of the state that a tick changes only under some control flags is kept by every instruction whose row
sets none of them. -/
theorem exec_frame {α : Type} (F : State → α) (writes : ControlWord → Bool) {i : Instr} {s t : State}
    (hset : ∀ (s : State) (v : Byte), F (s.setIr v) = F s)
    (htick : ∀ (o : Nibble) (cw : ControlWord) (m : Byte) (s : State), writes cw = false →
      F (tickDelivering defaultParams o cw m s) = F s)
    (hrow : ∀ st : MicroStep, writes (defaultMicrocode i.opcode st) = false)
    (h : exec i s = .next t) : F t = F s := by
  have hfetch0 : writes fetchAddressWord = false := by simpa using hrow 0
  have hfetch1 : writes fetchLoadWord = false := by simpa using hrow 1
  rw [exec_eq_execRow] at h
  exact execRow_frame F hset (fun o m s => ⟨htick o _ m s hfetch0, htick o _ m s hfetch1⟩)
    (fun st s => htick _ _ _ s (hrow st)) h

/-! ## The invariant of the engine -/

/-- The halting tick keeps the invariant: no clause but `halt` reads the latch. -/
theorem engineInv_halt {s : State} (h : EngineInv s) (h2 : s.step = 2)
    (ho : opcodeField s.ir = defaultOpcodeMap .hlt) : EngineInv s.halt :=
  { memory := h.memory
    halt := fun _ => ⟨h2, ho⟩
    fetchAddress := h.fetchAddress
    fetched := h.fetched
    operandAddress := h.operandAddress
    operandInB := h.operandInB
    controlWord := h.controlWord }

/-- Fetch step 0 keeps the invariant: its one new duty is that MA is PC. -/
theorem engineInv_tick_of_step_zero {s : State} (h : EngineInv s) (hr : s.halted = false) (h0 : s.step = 0) :
    EngineInv (tick s) := by
  rw [tick_of_step_zero hr h0]
  exact
    { memory := h.memory
      halt := fun hh => absurd (hr.symm.trans hh) Bool.false_ne_true
      fetchAddress := fun _ => rfl
      fetched := fun h2 => absurd h2 (show (1 : MicroStep) ≠ 2 by decide)
      operandAddress := fun h1 => absurd rfl h1
      operandInB := fun h40 => absurd h40 (show ¬ ((1 : MicroStep) = 4 ∨ (1 : MicroStep) = 0) by decide)
      controlWord := by simp only [sub_self, defaultMicrocode_zero]; decide +kernel }

/-- Fetch step 1 keeps the invariant: MA was PC, so PC is MA plus one, and IR is the entry at MA. -/
theorem engineInv_tick_of_step_one {s : State} (h : EngineInv s) (hr : s.halted = false) (h1 : s.step = 1) :
    EngineInv (tick s) := by
  have hma : s.ma = s.pc := h.fetchAddress h1
  rw [tick_of_step_one hr h1]
  exact
    { memory := h.memory
      halt := fun hh => absurd (hr.symm.trans hh) Bool.false_ne_true
      fetchAddress := fun h1' => absurd h1' (show (2 : MicroStep) ≠ 1 by decide)
      fetched := fun _ => ⟨congrArg (· + 1) hma.symm, rfl⟩
      operandAddress := fun _ h2 => absurd rfl h2
      operandInB := fun h40 => absurd h40 (show ¬ ((2 : MicroStep) = 4 ∨ (2 : MicroStep) = 0) by decide)
      controlWord := by
        simp only [show (2 : MicroStep) - 1 = 1 from rfl, defaultMicrocode_one]
        decide +kernel }

section Execute

/-! A tick of steps 2, 3 and 4 that does not halt. -/

variable {s : State} (hr : s.halted = false) (hw : (defaultMicrocode (opcodeField s.ir) s.step).hlt = false)
include hr hw

theorem tick_step : (tick s).step = s.step + 1 := by
  rw [tick_of_running hr, tickWord, tickDelivering_step hw]

/-- MA holds the operand after step 2 of an instruction that reaches memory, and keeps it in steps 3 and 4. -/
theorem tick_ma_of_reachesMemory (h : EngineInv s) (h2 : 2 ≤ s.step.val)
    (hm : reachesMemory (opcodeField s.ir) = true) : (tick s).ma = operandField s.ir := by
  rw [tick_of_running hr, tickWord, tickDelivering_ma hw]
  rcases Nat.eq_or_lt_of_le h2 with h2 | h3
  · have h2 : s.step = 2 := Fin.ext h2.symm
    rw [h2, defaultMicrocode_two_of_reachesMemory hm]
    simp [tickMa, tickBus, trunc4, operandByte, zext8]
  · have h1 : s.step ≠ 1 := fun he => absurd h3 (by rw [he]; decide)
    have h2 : s.step ≠ 2 := fun he => absurd h3 (by rw [he]; decide)
    simp only [tickMa, defaultMicrocode_mi _ h3, Bool.false_eq_true, if_false]
    exact h.operandAddress h1 h2 hm

/-- B holds the entry at MA after step 3 of ADD and SUB, and step 4 keeps B, MA and memory. -/
theorem tick_b_of_usesAlu (h : EngineInv s) (h34 : s.step = 3 ∨ s.step = 4) (ha : usesAlu (opcodeField s.ir) = true) :
    (tick s).b = memRead (tick s).mem (tick s).ma := by
  rw [tick_of_running hr, tickWord, tickDelivering_b hw, tickDelivering_mem hw, tickDelivering_ma hw]
  rcases h34 with h3 | h4
  · rw [h3, defaultMicrocode_three_of_usesAlu ha]
    rfl
  · obtain ⟨hb, hm⟩ := defaultMicrocode_four (opcodeField s.ir)
    have hmi : (defaultMicrocode (opcodeField s.ir) 4).mi = false := defaultMicrocode_mi _ (by decide)
    simp only [h4, tickMem, tickMa, hb, hm, hmi, Bool.false_eq_true, if_false]
    exact h.operandInB (.inl h4) ha

/-- The ticks past the fetch keep the invariant. -/
theorem engineInv_tick_of_execute (h : EngineInv s) (h2 : 2 ≤ s.step.val) : EngineInv (tick s) := by
  have hir : (tick s).ir = s.ir := tick_ir h2
  have hst : (tick s).step = s.step + 1 := tick_step hr hw
  obtain ⟨hne1, hne2⟩ := add_one_ne_of_two_le h2
  refine
    { memory := ?memory, halt := ?halt, fetchAddress := ?fetchAddress, fetched := ?fetched,
      operandAddress := ?operandAddress, operandInB := ?operandInB, controlWord := ?controlWord }
  case memory =>
    rw [tick_of_running hr, tickWord, tickDelivering_mem hw]
    exact wf_tickMem h.memory
  case halt =>
    rw [tick_of_running hr, tickWord, tickDelivering_halted hw, hr]
    exact nofun
  case fetchAddress => exact fun h1 => absurd (hst.symm.trans h1) hne1
  case fetched => exact fun h2' => absurd (hst.symm.trans h2') hne2
  case operandAddress =>
    intro _ _ hm
    rw [hir] at hm ⊢
    exact tick_ma_of_reachesMemory hr hw h h2 hm
  case operandInB =>
    intro h40 ha
    rw [hir] at ha
    rw [hst] at h40
    exact tick_b_of_usesAlu hr hw h (eq_three_or_four_of_add_one h40) ha
  case controlWord =>
    rw [hir, hst, add_sub_cancel_right, tick_of_running hr, tickWord, tickDelivering_cw hw]
    rfl

end Execute

/-- Every tick keeps the invariant: by whether it halts, and by the micro-step it runs. -/
theorem engineInv_tick {s : State} (h : EngineInv s) : EngineInv (tick s) := by
  cases hr : s.halted
  case true => rwa [tick_of_halted hr]
  case false =>
    cases hw : (defaultMicrocode (opcodeField s.ir) s.step).hlt
    case true =>
      obtain ⟨h2, ho⟩ := (defaultMicrocode_hlt _ _).1 hw
      rw [tick_of_running hr, tickWord_of_hlt hw]
      exact engineInv_halt h h2 ho
    case false =>
      by_cases h0 : s.step = 0
      · exact engineInv_tick_of_step_zero h hr h0
      by_cases h1 : s.step = 1
      · exact engineInv_tick_of_step_one h hr h1
      exact engineInv_tick_of_execute hr hw h (two_le_of_ne_zero_of_ne_one h0 h1)

theorem engineInv_ticks (n : Nat) {s : State} (h : EngineInv s) : EngineInv (ticks n s) := by
  induction n generalizing s with
  | zero => exact h
  | succ n ih => exact ih (engineInv_tick h)

/-- Settles O50: the invariant is kept by the fetch ticks, by the ticks past the fetch and by the halting tick. -/
theorem everyTickKeepsTheInvariant : Obligations.EveryTickKeepsTheInvariant := fun _ => engineInv_tick

/-- Settles O49: a step is a number of the engine's ticks, and each keeps the invariant. -/
theorem everyStepKeepsTheInvariant : Obligations.EveryStepKeepsTheInvariant := by
  intro s t h hst
  rw [step_eq_ticks] at hst
  injection hst with hst
  exact hst ▸ engineInv_ticks _ h

/-! ## What the engine never reads -/

/-- A state with other values in the Output register and the snapshot fields. -/
def State.withUnread (s : State) (out bus sum : Byte) (cw : BitVec 16) : State :=
  { s with out := out, bus := bus, sum := sum, cw := cw }

/-- Of two states alike for the engine, one is the other with its own unread fields. -/
theorem eq_withUnread_of_alike {s t : State} (h : AlikeForTheEngine s t) :
    t = s.withUnread t.out t.bus t.sum t.cw := by
  cases s
  cases t
  simp only [AlikeForTheEngine] at h
  obtain ⟨rfl, rfl, rfl, rfl, rfl, rfl, rfl, rfl, rfl, rfl⟩ := h
  rfl

theorem alikeForTheEngine_withUnread (s : State) (out bus sum : Byte) (cw : BitVec 16) :
    AlikeForTheEngine s (s.withUnread out bus sum cw) := ⟨rfl, rfl, rfl, rfl, rfl, rfl, rfl, rfl, rfl, rfl⟩

/-- No phase of a tick reads an unread field or a bit position. -/
theorem alikeForTheEngine_tickWord {P Q : Params} (hmap : P.opcodeMap = Q.opcodeMap) (opc : Nibble) (cw : ControlWord)
    {s t : State} (h : AlikeForTheEngine s t) : AlikeForTheEngine (tickWord P opc cw s) (tickWord Q opc cw t) := by
  rw [eq_withUnread_of_alike h]
  have hjump : ∀ out bus sum w, jumpTaken Q opc cw (s.withUnread out bus sum w) = jumpTaken P opc cw s := by
    intros; unfold jumpTaken; rw [hmap]; rfl
  cases hw : cw.hlt
  · simp only [AlikeForTheEngine, tickWord, tickDelivering, hw, hjump]
    exact ⟨rfl, rfl, rfl, rfl, rfl, rfl, rfl, rfl, rfl, rfl⟩
  · rw [tickWord_of_hlt hw, tickWord_of_hlt hw]
    exact alikeForTheEngine_withUnread s.halt _ _ _ _

theorem alikeForTheEngine_tickWith {P Q : Params} (hmap : P.opcodeMap = Q.opcodeMap)
    (hcode : P.microcode = Q.microcode) {s t : State} (h : AlikeForTheEngine s t) :
    AlikeForTheEngine (tickWith P s) (tickWith Q t) := by
  have ⟨_, _, hir, _, _, _, _, _, hstep, hhalted⟩ := h
  cases hr : s.halted
  · have hword : lookup Q t = lookup P s := by rw [lookup, lookup, hcode, hir, hstep]
    rw [tickWith_of_running P hr, tickWith_of_running Q (hhalted ▸ hr), hword, hir]
    exact alikeForTheEngine_tickWord hmap _ _ h
  · rwa [tickWith_of_halted P hr, tickWith_of_halted Q (hhalted ▸ hr)]

/-- Settles O55, by induction on the number of ticks. -/
theorem outputSnapshotAndBitPositionsAreNeverRead : Obligations.OutputSnapshotAndBitPositionsAreNeverRead := by
  intro P Q hmap hcode n
  induction n with
  | zero => exact fun _ _ h => h
  | succ n ih => exact fun s t h => ih _ _ (alikeForTheEngine_tickWith hmap hcode h)

/-! ## The table as numbers -/

/-- The microcode table of 41_microcode.md R81 as sixteen-bit words, a row for each opcode. -/
def microcodeWords : List (List (BitVec 16)) :=
  [[0x4004, 0x1408, 0x0000, 0x0000, 0x0000],
   [0x4004, 0x1408, 0x4800, 0x1200, 0x0000],
   [0x4004, 0x1408, 0x4800, 0x1020, 0x0281],
   [0x4004, 0x1408, 0x4800, 0x1020, 0x02C1],
   [0x4004, 0x1408, 0x4800, 0x2100, 0x0000],
   [0x4004, 0x1408, 0x0A00, 0x0000, 0x0000],
   [0x4004, 0x1408, 0x0802, 0x0000, 0x0000],
   [0x4004, 0x1408, 0x0802, 0x0000, 0x0000],
   [0x4004, 0x1408, 0x0802, 0x0000, 0x0000],
   [0x4004, 0x1408, 0x0000, 0x0000, 0x0000],
   [0x4004, 0x1408, 0x0000, 0x0000, 0x0000],
   [0x4004, 0x1408, 0x0000, 0x0000, 0x0000],
   [0x4004, 0x1408, 0x0000, 0x0000, 0x0000],
   [0x4004, 0x1408, 0x0000, 0x0000, 0x0000],
   [0x4004, 0x1408, 0x0110, 0x0000, 0x0000],
   [0x4004, 0x1408, 0x8000, 0x0000, 0x0000]]

/-- The table's entry for an opcode and a micro-step. -/
def microcodeEntry (opc : Nat) (st : MicroStep) : BitVec 16 := (microcodeWords.getD opc []).getD st.val 0

/-- Bits 7 to 4 of the byte as a number. -/
theorem toNat_opcodeField (b : Byte) : (opcodeField b).toNat = b.toNat / 16 := by
  revert b; decide +kernel

theorem cwNumber_defaultMicrocode (opc : Nibble) (st : MicroStep) :
    cwNumber defaultCwBits (defaultMicrocode opc st) = microcodeEntry opc.toNat st := by
  revert opc st; decide +kernel

/-- The entry 0x8000 is the word with the halt flag. -/
theorem microcodeEntry_eq_hlt (opc : Nibble) (st : MicroStep) :
    microcodeEntry opc.toNat st = 0x8000 ↔ (defaultMicrocode opc st).hlt = true := by
  revert opc st; decide +kernel

/-- Settles O16: the word of the tick is the table's entry, and the entry 0x8000 is the halting one. -/
theorem microcodeTableWords : Obligations.MicrocodeTableWords := by
  intro s hr
  show cwNumber defaultCwBits (defaultMicrocode (opcodeField s.ir) s.step) = microcodeEntry (s.ir.toNat / 16) s.step ∧
    (microcodeEntry (s.ir.toNat / 16) s.step = 0x8000 → (tick s).halted = true ∧ (tick s).cw = s.cw) ∧
    (microcodeEntry (s.ir.toNat / 16) s.step ≠ 0x8000 →
      (tick s).halted = false ∧ (tick s).cw = microcodeEntry (s.ir.toNat / 16) s.step)
  rw [← toNat_opcodeField]
  have hnum := cwNumber_defaultMicrocode (opcodeField s.ir) s.step
  refine ⟨hnum, fun hhlt => ?_, fun hrun => ?_⟩
  · rw [microcodeEntry_eq_hlt] at hhlt
    rw [tick_of_running hr, tickWord_of_hlt hhlt]
    exact ⟨rfl, rfl⟩
  · rw [Ne, microcodeEntry_eq_hlt, Bool.not_eq_true] at hrun
    rw [tick_of_running hr, tickWord, tickDelivering_halted hrun, tickDelivering_cw hrun]
    exact ⟨hr, hnum⟩

/-! ## Registers, latch and flags -/

/-- Settles O36: no word of the other instructions' rows sets the register's flag. -/
theorem registersOnlyWrittenByTheirInstructions : Obligations.RegistersOnlyWrittenByTheirInstructions := by
  intro i s t h
  refine ⟨fun hi => ?_, fun hi => ?_, fun hi => ?_, fun hi => ?_⟩
  · exact exec_frame State.a ControlWord.ai setIr_a (fun _ _ _ _ => tickDelivering_a_of_unset)
      (fun st => defaultMicrocode_ai st hi) h
  · exact exec_frame State.b ControlWord.bi setIr_b (fun _ _ _ _ => tickDelivering_b_of_unset)
      (fun st => defaultMicrocode_bi st hi) h
  · exact exec_frame State.out ControlWord.oi setIr_out (fun _ _ _ _ => tickDelivering_out_of_unset)
      (fun st => defaultMicrocode_oi st hi) h
  · refine exec_frame State.halted ControlWord.hlt setIr_halted (fun _ _ _ _ => tickDelivering_halted) (fun st => ?_) h
    exact Bool.eq_false_iff.2 fun hw => hi ((defaultMicrocode_hlt _ st).1 hw).2

/-- The instructions with the opcodes of ADD and SUB are ADD and SUB. -/
theorem opcode_not_mem_of_ne_add_sub {i : Instr} (hadd : ∀ n, i ≠ .add n) (hsub : ∀ n, i ≠ .sub n) :
    i.opcode ∉ [0x2#4, 0x3#4] := by
  cases i
  case add n => exact absurd rfl (hadd n)
  case sub n => exact absurd rfl (hsub n)
  all_goals simp only [Instr.opcode]; decide

/-- Settles O37: no word of the other instructions' rows sets flags-in. -/
theorem flagsOnlyWrittenByAddAndSub : Obligations.FlagsOnlyWrittenByAddAndSub := by
  intro i s t h hadd hsub
  have hrow : ∀ st, (defaultMicrocode i.opcode st).fi = false := fun st =>
    defaultMicrocode_fi st (opcode_not_mem_of_ne_add_sub hadd hsub)
  exact ⟨exec_frame State.carry ControlWord.fi setIr_carry (fun _ _ _ _ => tickDelivering_carry_of_unset) hrow h,
    exec_frame State.zero ControlWord.fi setIr_zero (fun _ _ _ _ => tickDelivering_zero_of_unset) hrow h⟩

/-! ## The observer -/

/-- A halted engine and a halting tick hand over nothing. -/
theorem emission_eq_none_iff {P : Params} {s : State} :
    emission P s = none ↔ s.halted = true ∨ (lookup P s).hlt = true := by
  cases hr : s.halted <;> simp [emission, hr]

/-- Every other tick hands over the view after it, with its own step. -/
theorem emission_of_completed {P : Params} {s : State} (hr : s.halted = false) (hw : (lookup P s).hlt = false) :
    emission P s = some (viewOf s.step (tickWith P s)) := by
  simp [emission, hr, hw]

/-- The view held after a completed tick is the view of that tick. -/
theorem heldView_tickWith {P : Params} {s : State} (hr : s.halted = false) (hw : (lookup P s).hlt = false) :
    heldView (tickWith P s) = viewOf s.step (tickWith P s) := by
  have hstep : (tickWith P s).step = s.step + 1 := by rw [tickWith_of_running P hr, tickWord, tickDelivering_step hw]
  rw [heldView, hstep, add_sub_cancel_right]

/-- Settles O54: by whether the engine is halted, halts in this tick, or completes it. -/
theorem heldSnapshotIsTheLastEmission : Obligations.HeldSnapshotIsTheLastEmission := by
  intro P s
  cases hr : s.halted
  case true =>
    rw [emission_eq_none_iff.2 (.inl hr), tickWith_of_halted P hr]
    exact ⟨nofun, fun _ => rfl⟩
  case false =>
    cases hw : (lookup P s).hlt
    case true =>
      rw [emission_eq_none_iff.2 (.inr hw), tickWith_of_hlt hr hw]
      exact ⟨nofun, fun _ => rfl⟩
    case false =>
      rw [emission_of_completed hr hw, heldView_tickWith hr hw]
      exact ⟨fun _ => Option.some.inj, nofun⟩

/-- Settles O53: the view handed over is that of the state after the tick, and cw and sum are the tick's own. -/
theorem observerSeesEveryCompletedTick : Obligations.ObserverSeesEveryCompletedTick := by
  intro P s
  refine ⟨emission_eq_none_iff.2, fun hr hw => ⟨_, emission_of_completed hr hw, rfl, ?_, rfl, ?_, rfl, rfl, rfl, rfl,
    rfl, rfl, rfl⟩⟩
  · show (tickWith P s).cw = _
    rw [tickWith_of_running P hr, tickWord, tickDelivering_cw hw]
  · show (tickWith P s).sum = _
    rw [tickWith_of_running P hr, tickWord, tickDelivering_sum hw]
    rfl

/-! ## A step and the instruction it runs -/

/-- A step whose current byte is that of an instruction runs the instruction. -/
theorem step_of_currentByte {s : State} {i : Instr} (h : currentByte s = encode i) : Machine.step s = exec i s := by
  rw [Machine.step, h, decodeByte_encode]

theorem currentByte_of_step_zero {s : State} (h : s.step = 0) : currentByte s = memRead s.mem s.pc := by
  simp [currentByte, h]

theorem currentByte_of_step_one {s : State} (h : s.step = 1) : currentByte s = memRead s.mem s.ma := by
  simp [currentByte, h]

theorem currentByte_of_two_le_step {s : State} (h : 2 ≤ s.step.val) : currentByte s = s.ir := by
  have h0 : s.step ≠ 0 := fun he => absurd h (by rw [he]; decide)
  have h1 : s.step ≠ 1 := fun he => absurd h (by rw [he]; decide)
  simp [currentByte, h0, h1]

/-- Settles O42: at each micro-step the current byte is the one the clause names. -/
theorem stepRunsTheDecodedInstruction : Obligations.StepRunsTheDecodedInstruction :=
  ⟨fun _ _ h hb => step_of_currentByte ((currentByte_of_step_zero h).trans hb),
    fun _ _ h hb => step_of_currentByte ((currentByte_of_step_one h).trans hb),
    fun _ _ h hb => step_of_currentByte ((currentByte_of_two_le_step h).trans hb)⟩

end Sys2Proof.Machine
end

section
/-! PROOFS of the statements on memory (20_memory.md). First what the engine's operations do to the entries, then the
three execution words of STA from each micro-step, then each statement's proof. -/

namespace Sys2Proof.Machine

/-! ## Memory across the operations of the engine -/

/-- Only the row of STA writes memory. -/
theorem defaultMicrocode_ri {opc : Nibble} (st : MicroStep) (h : opc ≠ defaultOpcodeMap .sta) :
    (defaultMicrocode opc st).ri = false := by
  revert opc st; decide +kernel

/-- The one instruction with the opcode of STA is STA. -/
theorem opcode_ne_of_ne_sta {i : Instr} (hsta : ∀ n, i ≠ .sta n) : i.opcode ≠ defaultOpcodeMap .sta := by
  cases i
  case sta n => exact absurd rfl (hsta n)
  all_goals simp only [Instr.opcode]; decide

theorem tickDelivering_mem_of_unset {P : Params} {opc : Nibble} {cw : ControlWord} {m : Byte} {s : State}
    (h : cw.ri = false) : (tickDelivering P opc cw m s).mem = s.mem := by
  cases hw : cw.hlt
  · simp [hw, h, tickMem]
  · rw [tickDelivering_of_hlt hw, halt_mem]

/-- Of a memory with one entry written, that entry gives the byte and every other what it gave (20_memory.md R47). -/
theorem memRead_of_eq_memWrite {m m' : Memory} {a : Nibble} {v : Byte} (h : m' = memWrite m a v) :
    memRead m' a = v ∧ ∀ b, b ≠ a → memRead m' b = memRead m b :=
  h ▸ ⟨memRead_memWrite_self m a v, fun _ hb => memRead_memWrite_ne m v hb⟩

/-! ## The fetch ticks -/

/-- Past the fetch, nothing is due but the byte in IR. -/
theorem fetchInto_of_two_le_step {s : State} (byte : Byte) (h : 2 ≤ s.step.val) : fetchInto byte s = s.setIr byte := by
  have h0 : s.step ≠ 0 := fun he => absurd h (by rw [he]; decide)
  have h1 : s.step ≠ 1 := fun he => absurd h (by rw [he]; decide)
  simp [fetchInto, h0, h1]

/-- Once the fetch is done the step counter is at 2, wherever in the fetch it began. -/
theorem fetchInto_step_of_le_two {s : State} (byte : Byte) (h : s.step.val ≤ 2) : (fetchInto byte s).step = 2 := by
  apply Fin.ext
  rw [fetchInto_step]
  show _ = 2
  split <;> omega

/-- What the two fetch words and the load of IR leave alone, the fetch leaves alone. -/
theorem fetchInto_frame {α : Type} (F : State → α) (byte : Byte) (s : State)
    (hset : ∀ (s : State) (v : Byte), F (s.setIr v) = F s)
    (hfetch : ∀ (o : Nibble) (m : Byte) (s : State),
      F (tickDelivering defaultParams o fetchAddressWord m s) = F s ∧
      F (tickDelivering defaultParams o fetchLoadWord m s) = F s) :
    F (fetchInto byte s) = F s := by
  unfold fetchInto
  split
  · exact (hfetch _ _ _).2.trans (hfetch _ _ _).1
  split
  · exact (hfetch _ _ _).2
  · exact hset _ _

@[simp] theorem fetchInto_mem (byte : Byte) (s : State) : (fetchInto byte s).mem = s.mem :=
  fetchInto_frame State.mem byte s setIr_mem fun _ _ _ =>
    ⟨tickDelivering_mem_of_unset rfl, tickDelivering_mem_of_unset rfl⟩

@[simp] theorem fetchInto_a (byte : Byte) (s : State) : (fetchInto byte s).a = s.a :=
  fetchInto_frame State.a byte s setIr_a fun _ _ _ => ⟨tickDelivering_a_of_unset rfl, tickDelivering_a_of_unset rfl⟩

@[simp] theorem fetchInto_halted (byte : Byte) (s : State) : (fetchInto byte s).halted = s.halted :=
  fetchInto_frame State.halted byte s setIr_halted fun _ _ _ =>
    ⟨tickDelivering_halted rfl, tickDelivering_halted rfl⟩

/-! ## The words of an instruction that reaches memory, as whole states -/

/-- The word that sets no flag advances the step and refreshes the snapshot. -/
theorem tickWord_noAction (P : Params) (opc : Nibble) (s : State) :
    tickWord P opc {} s =
      { s with step := s.step + 1, bus := 0, sum := s.a + s.b, cw := cwNumber P.cwBits {} } := by
  simp [tickWord, tickDelivering, tickBus, tickMa, tickMem, tickCarry, tickZero, flagAfter, pcCounted, jumpTaken,
    tickSum, alu, aluSum]

/-- `IO MI`: MA takes the operand in IR (42_cycle_engine.md R95, R97). -/
theorem tickWord_operandAddress (P : Params) (opc : Nibble) (s : State) :
    tickWord P opc { io := true, mi := true } s =
      { s with ma := operandField s.ir, step := s.step + 1, bus := operandByte s.ir, sum := s.a + s.b,
               cw := cwNumber P.cwBits { io := true, mi := true } } := by
  simp [tickWord, tickDelivering, tickBus, tickMa, tickMem, tickCarry, tickZero, flagAfter, pcCounted, jumpTaken,
    tickSum, alu, aluSum, trunc4, operandByte, zext8]

/-- `AO RI`: the entry at MA takes A (42_cycle_engine.md R98). -/
theorem tickWord_storeA (P : Params) (opc : Nibble) (s : State) :
    tickWord P opc { ao := true, ri := true } s =
      { s with mem := memWrite s.mem s.ma s.a, step := s.step + 1, bus := s.a, sum := s.a + s.b,
               cw := cwNumber P.cwBits { ao := true, ri := true } } := by
  simp [tickWord, tickDelivering, tickBus, tickMa, tickMem, tickCarry, tickZero, flagAfter, pcCounted, jumpTaken,
    tickSum, alu, aluSum]

theorem rowTick_of_running {opc : Nibble} {row : Row} {s : State} (hr : s.halted = false) :
    rowTick opc row s = tickWord defaultParams opc (row s.step) s := by
  simp [rowTick, hr]

/-- An instruction of a running engine is its row's words on the fetched state. -/
theorem execRow_of_running {opc : Nibble} {row : Row} {byte : Byte} {s : State} (hr : s.halted = false) :
    execRow opc row byte s = .next (rowTicks opc row (5 - (fetchInto byte s).step.val) (fetchInto byte s)) := by
  simp [execRow, hr]

/-! ## STA from each micro-step -/

/-- STA runs its row of the microcode table on its own byte. -/
theorem exec_sta (n : Nibble) (s : State) :
    exec (.sta n) s = execRow (Instr.sta n).opcode rowSta (encode (.sta n)) s := rfl

section Sta

variable {opc : Nibble} {s : State}

/-- Step 4 of STA has no action. -/
theorem rowTicks_sta_of_step_four (hr : s.halted = false) (h4 : s.step = 4) :
    rowTicks opc rowSta 1 s = { s with step := 0, bus := 0, sum := s.a + s.b, cw := 0x0000 } := by
  rw [rowTicks, rowTicks, rowTick_of_running hr, h4]
  exact (tickWord_noAction _ _ _).trans (by rw [h4]; rfl)

/-- From step 3, STA stores A at MA. -/
theorem rowTicks_sta_of_step_three (hr : s.halted = false) (h3 : s.step = 3) :
    rowTicks opc rowSta 2 s =
      { s with mem := memWrite s.mem s.ma s.a, step := 0, bus := 0, sum := s.a + s.b, cw := 0x0000 } := by
  rw [rowTicks, rowTick_of_running hr, h3, show rowSta 3 = { ao := true, ri := true } from rfl, tickWord_storeA,
    rowTicks_sta_of_step_four]
  case hr => exact hr
  case h4 => simp only [h3]; rfl

/-- From step 2, STA loads MA with the operand in IR and stores A there. -/
theorem rowTicks_sta_of_step_two (hr : s.halted = false) (h2 : s.step = 2) :
    rowTicks opc rowSta 3 s =
      { s with mem := memWrite s.mem (operandField s.ir) s.a, ma := operandField s.ir, step := 0, bus := 0,
               sum := s.a + s.b, cw := 0x0000 } := by
  rw [rowTicks, rowTick_of_running hr, h2, show rowSta 2 = { io := true, mi := true } from rfl,
    tickWord_operandAddress, rowTicks_sta_of_step_three]
  case hr => exact hr
  case h3 => simp only [h2]; rfl

end Sta

section ExecSta

variable {n : Nibble} {s t : State} (hr : s.halted = false) (h : exec (.sta n) s = .next t)
include hr h

/-- STA answers its row's words on the fetched state. -/
theorem eq_rowTicks_of_exec_sta {u : State} (hu : fetchInto (encode (.sta n)) s = u) :
    rowTicks (Instr.sta n).opcode rowSta (5 - u.step.val) u = t := by
  rw [exec_sta, execRow_of_running hr, hu] at h
  injection h

/-- With the operand still to reach MA, STA n writes entry n. -/
theorem exec_sta_mem_of_step_le_two (h2 : s.step.val ≤ 2) : t.mem = memWrite s.mem n s.a := by
  have hstep := fetchInto_step_of_le_two (encode (.sta n)) h2
  rw [← eq_rowTicks_of_exec_sta hr h rfl, hstep]
  show (rowTicks _ _ 3 _).mem = _
  rw [rowTicks_sta_of_step_two (by rw [fetchInto_halted, hr]) hstep]
  simp [Instr.operand]

/-- Begun at step 3, STA writes the entry at MA. -/
theorem exec_sta_mem_of_step_three (h3 : s.step = 3) : t.mem = memWrite s.mem s.ma s.a := by
  rw [← eq_rowTicks_of_exec_sta hr h (fetchInto_of_two_le_step _ (by rw [h3]; decide)), setIr_step, h3]
  show (rowTicks _ _ 2 _).mem = _
  rw [rowTicks_sta_of_step_three (by rw [setIr_halted, hr]) (by rw [setIr_step, h3])]
  rfl

/-- Begun at step 4, STA writes no entry. -/
theorem exec_sta_mem_of_step_four (h4 : s.step = 4) : t.mem = s.mem := by
  rw [← eq_rowTicks_of_exec_sta hr h (fetchInto_of_two_le_step _ (by rw [h4]; decide)), setIr_step, h4]
  show (rowTicks _ _ 1 _).mem = _
  rw [rowTicks_sta_of_step_four (by rw [setIr_halted, hr]) (by rw [setIr_step, h4])]
  rfl

end ExecSta

/-- STA n from a boundary as a whole state: the entry at n takes A (43_data_transfer.md R109). -/
theorem exec_sta_of_atBoundary {s : State} (n : Nibble) (hb : AtBoundary s) :
    exec (.sta n) s =
      .next { s with mem := memWrite s.mem n s.a, ma := n, pc := s.pc + 1, ir := encode (.sta n), bus := 0,
                     sum := s.a + s.b, cw := 0x0000 } := by
  obtain ⟨hr, h0⟩ := hb
  rw [exec_sta, execRow_boundary hr h0, rowTicks_sta_of_step_two]
  case hr => exact hr
  case h2 => rfl
  rw [operandField_encode, h0]
  rfl

/-- A step from micro-step 0 runs what the entry at PC decodes to. -/
theorem step_of_step_zero {s : State} (h0 : s.step = 0) :
    Machine.step s = exec (decodeByte (memRead s.mem s.pc)) s := by
  rw [Machine.step, currentByte_of_step_zero h0]

/-! ## The statements -/

/-- Settles O38: no row but STA's sets memory-write, and STA's stores once, in its step 3. -/
theorem memoryOnlyWrittenBySta : Obligations.MemoryOnlyWrittenBySta := by
  refine ⟨fun i s t h hsta addr => ?_, fun n s t hr h => ⟨fun h2 => ?_, fun h3 => ?_, fun h4 addr => ?_⟩⟩
  · have hmem : t.mem = s.mem :=
      exec_frame State.mem ControlWord.ri setIr_mem (fun _ _ _ _ => tickDelivering_mem_of_unset)
        (fun st => defaultMicrocode_ri st (opcode_ne_of_ne_sta hsta)) h
    rw [hmem]
  · exact memRead_of_eq_memWrite (exec_sta_mem_of_step_le_two hr h h2)
  · exact memRead_of_eq_memWrite (exec_sta_mem_of_step_three hr h h3)
  · rw [exec_sta_mem_of_step_four hr h h4]

/-- Settles O41: the store is in memory when the next fetch reads it, at p + 1 as at p. -/
theorem storeIsSeenByTheNextFetch : Obligations.StoreIsSeenByTheNextFetch := by
  refine ⟨fun s t hb h => ?_, fun s t hb h => ?_⟩
  · injection (exec_sta_of_atBoundary _ hb).symm.trans h with h
    have h0 : t.step = 0 := h ▸ hb.2
    have hread : memRead t.mem t.pc = s.a := h ▸ memRead_memWrite_self s.mem (s.pc + 1) s.a
    exact ⟨(currentByte_of_step_zero h0).trans hread, by rw [step_of_step_zero h0, hread]⟩
  · injection (exec_sta_of_atBoundary _ hb).symm.trans h with h
    have hmem : t.mem = memWrite s.mem s.pc s.a := h ▸ rfl
    obtain ⟨hself, hother⟩ := memRead_of_eq_memWrite hmem
    refine ⟨h ▸ rfl, h ▸ rfl, h ▸ hb, hself, hother, fun u hu0 hupc humem => ?_⟩
    rw [step_of_step_zero hu0, hupc, humem, hself]

end Sys2Proof.Machine
end

section
/-! PROOFS of the statements on the encoding (30_encoding.md): the instruction byte, the assembler, the checks on a
table and an opcode map, and the operand bits an instruction ignores. -/

namespace Sys2Proof.Machine

/-! ## The instruction byte -/

/-- Settles O1: each of the decoder and the encoder undoes the other. -/
theorem decodeEncodeAgree : Obligations.DecodeEncodeAgree :=
  ⟨fun i rest => by rw [decode, decodeByte_encode], encode_decodeByte⟩

/-- The packed byte as a number: the shift is a multiplication by 16, and the operand fits under it. -/
theorem toNat_packByte (o n : Nibble) : (packByte o n).toNat = 16 * o.toNat + n.toNat := by
  revert o n; decide +kernel

/-- Bits 3 to 0 of the byte as a number. -/
theorem toNat_operandField (b : Byte) : (operandField b).toNat = b.toNat % 16 := by
  simp [operandField]

/-- Zero-extension keeps the number. -/
theorem toNat_operandByte (ir : Byte) : (operandByte ir).toNat = ir.toNat % 16 := by
  rw [operandByte, zext8, BitVec.toNat_setWidth_of_le (by decide), toNat_operandField]

/-- Settles O2: the byte's two fields as numbers, and where the engine reads each. -/
theorem byteIsOpcodeAndOperand : Obligations.ByteIsOpcodeAndOperand := by
  refine ⟨fun i => toNat_packByte _ _, fun b => ?_, fun P s => ?_, fun P opc s => ?_⟩
  · rw [opcode_decodeByte, operand_decodeByte]
    exact ⟨toNat_opcodeField b, toNat_operandField b⟩
  · rw [← toNat_opcodeField, BitVec.ofNat_toNat, BitVec.setWidth_eq, lookup]
  · have hbus : (tickWord P opc { io := true } s).bus = operandByte s.ir := tickDelivering_bus rfl
    rw [hbus, toNat_operandByte]

/-! ## The assembler -/

/-- The number a line stands for (30_encoding.md R71, R72). -/
def lineValue : SourceLine → Nat
  | .ins m n => 16 * (defaultOpcodeMap m).toNat + n.getD 0
  | .db v => v

/-- An accepted line's byte is its number: the range check leaves nothing to truncate. -/
theorem toNat_of_assembleLine {l : SourceLine} {b : Byte} (h : assembleLine l = .ok b) : b.toNat = lineValue l := by
  unfold assembleLine at h
  split at h
  case isFalse => cases h
  next hwf =>
    cases l with
    | ins m n =>
      have hn : n.getD 0 < 16 := by
        cases n with
        | none => decide
        | some n => exact of_decide_eq_true hwf
      cases h
      rw [toNat_packByte, BitVec.toNat_ofNat, Nat.mod_eq_of_lt hn, lineValue]
    | db v =>
      have hv : v < 256 := of_decide_eq_true hwf
      cases h
      rw [BitVec.toNat_ofNat, Nat.mod_eq_of_lt hv, lineValue]

/-- The lines' bytes are the lines' numbers, in order. -/
theorem map_toNat_of_assembleLines {ls : List SourceLine} :
    ∀ {bs : List Byte}, assembleLines ls = .ok bs → bs.map BitVec.toNat = ls.map lineValue := by
  induction ls with
  | nil => intro bs h; cases h; rfl
  | cons l ls ih =>
    intro bs h
    unfold assembleLines at h
    split at h
    case h_1 hl hls => cases h; simp [toNat_of_assembleLine hl, ih hls]
    all_goals cases h

/-- An image is the lines' numbers, filled up with zeros to 16 entries. -/
theorem map_toNat_of_assemble {ls : List SourceLine} {image : List Byte} (h : assemble ls = .ok image) :
    image.map BitVec.toNat = ls.map lineValue ++ List.replicate (16 - ls.length) 0 := by
  unfold assemble at h
  split at h
  case isFalse => cases h
  split at h
  case h_2 => cases h
  next bs hbs =>
    have hmap := map_toNat_of_assembleLines hbs
    have hlen : bs.length = ls.length := by simpa using congrArg List.length hmap
    cases h
    rw [List.map_append, hmap, List.map_replicate, hlen]
    rfl

/-- Settles O56: entry k of the image is line k's number, or one of the zeros after the last line. -/
theorem assemblerPlacesLinesInOrder : Obligations.AssemblerPlacesLinesInOrder := by
  intro ls image h k hk
  rw [← List.getElem?_map, map_toNat_of_assemble h]
  by_cases hkl : k < ls.length
  · rw [List.getElem?_append_left (by simpa using hkl), List.getElem?_map, List.getElem?_eq_getElem hkl]
    cases ls[k] <;> rfl
  · rw [List.getElem?_append_right (by simpa using hkl), List.getElem?_replicate_of_lt (by simp; omega),
      List.getElem?_eq_none (by omega)]

/-! ## The check on a microcode table -/

theorem mem_allOpcodes (opc : Nibble) : opc ∈ allOpcodes := by
  revert opc; decide +kernel

theorem mem_allSteps (st : MicroStep) : st ∈ allSteps := by
  revert st; decide

/-- The check of a table looks at every word. -/
theorem tableOk_iff {P : Params} : P.tableOk = true ↔ ∀ opc st, (P.microcode opc st).singleSource = true := by
  simp [Params.tableOk, mem_allOpcodes, mem_allSteps]

/-- No word of the default table sets two bus sources (30_encoding.md R70). -/
theorem singleSource_defaultMicrocode (opc : Nibble) (st : MicroStep) :
    (defaultMicrocode opc st).singleSource = true := by
  revert opc st; decide +kernel

/-- Setup has no say in the microcode table. -/
theorem setupRequest_ne_multiSourceWord (bytes : List Byte) : setupRequest bytes ≠ .refused .multiSourceWord := by
  unfold setupRequest
  split <;> simp

theorem configure_eq_multiSourceWord_iff {P : Params} {bytes : List Byte} :
    configure P bytes = .refused .multiSourceWord ↔ P.tableOk = false := by
  cases h : P.tableOk
  · simp [configure, h]
  · simp [configure, h, setupRequest_ne_multiSourceWord]

/-- Settles O18: the check refuses a table exactly when it is not true that each of its words passes. -/
theorem tablesWithTwoSourcesAreRefused : Obligations.TablesWithTwoSourcesAreRefused := by
  refine ⟨singleSource_defaultMicrocode, fun P bytes => ?_⟩
  rw [configure_eq_multiSourceWord_iff, ← Bool.not_eq_true, tableOk_iff]
  simp only [not_forall, Bool.not_eq_true]

/-! ## The row an opcode map selects -/

theorem mem_all_mnemonics (m : Mnemonic) : m ∈ Mnemonic.all := by
  cases m <;> decide

theorem mnemonicAt_eq_none_iff {map : Mnemonic → Nibble} {opc : Nibble} :
    mnemonicAt map opc = none ↔ ∀ m, map m ≠ opc := by
  simp [mnemonicAt, mem_all_mnemonics]

theorem map_of_mnemonicAt_eq_some {map : Mnemonic → Nibble} {opc : Nibble} {m : Mnemonic}
    (h : mnemonicAt map opc = some m) : map m = opc := by
  simpa using List.find?_some h

/-- Settles O19: the search finds a mnemonic exactly at the values the map gives out, and the right one if no two
share the value. -/
theorem unassignedOpcodesAreNoOpsUnderEveryMap : Obligations.UnassignedOpcodesAreNoOpsUnderEveryMap := by
  refine fun map => ⟨fun opc hfree => ?_, fun hinj m => ?_⟩
  · rw [microcodeFor, mnemonicAt_eq_none_iff.2 hfree]
  · cases hm : mnemonicAt map (map m) with
    | none => exact absurd rfl (mnemonicAt_eq_none_iff.1 hm m)
    | some m' => rw [microcodeFor, hm, hinj m' m (map_of_mnemonicAt_eq_some hm)]

/-! ## The operand bits an instruction ignores

A row without `IO` and `II` past its fetch neither reads nor writes IR, so its ticks commute with putting another byte
there. -/

/-- The opcodes of the forms that ignore their operand (30_encoding.md R61): NOP, 0x9 to 0xD, OUT, HLT. -/
def operandIgnoringOpcodes : List Nibble := [0x0, 0x9, 0xA, 0xB, 0xC, 0xD, 0xE, 0xF]

/-- A row that from step 2 on never drives IR onto the bus and never loads it. -/
def LeavesIrAlone (row : Row) : Prop := ∀ st : MicroStep, 2 ≤ st.val → (row st).io = false ∧ (row st).ii = false

theorem leavesIrAlone_defaultMicrocode {opc : Nibble} (h : opc ∈ operandIgnoringOpcodes) :
    LeavesIrAlone (defaultMicrocode opc) := by
  revert opc; unfold LeavesIrAlone; decide +kernel

/-- The one instruction with the opcode of HLT is HLT. -/
theorem opcode_ne_of_ne_hlt {i : Instr} (hhlt : ∀ n, i ≠ .hlt n) : i.opcode ≠ defaultOpcodeMap .hlt := by
  cases i
  case hlt n => exact absurd rfl (hhlt n)
  all_goals simp only [Instr.opcode]; decide

/-- A form that ignores its operand has one opcode, whatever the operand. -/
theorem opcode_of_ignored_operand {mk : Nibble → Instr}
    (h : mk ∈ [Instr.nop, Instr.unassigned9, Instr.unassignedA, Instr.unassignedB, Instr.unassignedC,
      Instr.unassignedD, Instr.out, Instr.hlt]) :
    ∃ opc ∈ operandIgnoringOpcodes, ∀ x, (mk x).opcode = opc := by
  simp only [List.mem_cons, List.not_mem_nil, or_false] at h
  rcases h with rfl | rfl | rfl | rfl | rfl | rfl | rfl | rfl <;> exact ⟨_, by decide, fun _ => rfl⟩

/-- The state with another value in the bus field. -/
def State.setBus (s : State) (v : Byte) : State := { s with bus := v }

@[simp] theorem setBus_step (s : State) (v : Byte) : (s.setBus v).step = s.step := rfl

/-- Putting in the bus field what it holds changes nothing. -/
@[simp] theorem setBus_self (s : State) : s.setBus s.bus = s := rfl

/-- A word without `IO` and `II` commutes with another byte in IR. -/
theorem tickWord_setIr {P : Params} {opc : Nibble} {cw : ControlWord} (hio : cw.io = false) (hii : cw.ii = false)
    (s : State) (v : Byte) : tickWord P opc cw (s.setIr v) = (tickWord P opc cw s).setIr v := by
  cases hw : cw.hlt
  · have hbus : tickBus cw (memRead s.mem s.ma) (s.setIr v) = tickBus cw (memRead s.mem s.ma) s := by
      simp only [tickBus, hio]; rfl
    simp only [tickWord, tickDelivering, hw, setIr_mem, setIr_ma, hbus, hii]
    rfl
  · rw [tickWord_of_hlt hw, tickWord_of_hlt hw]; rfl

/-- No word that completes its tick reads the bus field (42_cycle_engine.md R88). -/
theorem tickWord_setBus {P : Params} {opc : Nibble} {cw : ControlWord} (hw : cw.hlt = false) (s : State) (v : Byte) :
    tickWord P opc cw (s.setBus v) = tickWord P opc cw s := by
  simp only [tickWord, tickDelivering, hw]
  rfl

section Rows

variable {opc : Nibble} {row : Row}

theorem rowTick_of_halted {s : State} (h : s.halted = true) : rowTick opc row s = s := by
  simp [rowTick, h]

theorem rowTicks_of_halted {s : State} (h : s.halted = true) (n : Nat) : rowTicks opc row n s = s := by
  induction n with
  | zero => rfl
  | succ n ih => rw [rowTicks, rowTick_of_halted h, ih]

/-- A tick of a row ends halted, or one micro-step on. -/
theorem rowTick_halted_or_step (s : State) :
    (rowTick opc row s).halted = true ∨ (rowTick opc row s).step = s.step + 1 := by
  cases hr : s.halted
  · rw [rowTick_of_running hr]
    cases hw : (row s.step).hlt
    · exact .inr (tickDelivering_step hw)
    · rw [tickWord_of_hlt hw]; exact .inl rfl
  · rw [rowTick_of_halted hr]; exact .inl hr

theorem rowTick_setIr (hrow : LeavesIrAlone row) {s : State} (h2 : 2 ≤ s.step.val) (v : Byte) :
    rowTick opc row (s.setIr v) = (rowTick opc row s).setIr v := by
  cases hr : s.halted
  · obtain ⟨hio, hii⟩ := hrow s.step h2
    rw [rowTick_of_running hr, rowTick_of_running (s := s.setIr v) hr]
    exact tickWord_setIr hio hii s v
  · rw [rowTick_of_halted hr, rowTick_of_halted (s := s.setIr v) hr]

/-- Past the fetch, the ticks up to the end of step 4 commute with another byte in IR. -/
theorem rowTicks_setIr (hrow : LeavesIrAlone row) (v : Byte) (n : Nat) :
    ∀ {s : State}, 2 ≤ s.step.val → s.step.val + n ≤ 5 →
      rowTicks opc row n (s.setIr v) = (rowTicks opc row n s).setIr v := by
  induction n with
  | zero => intros; rfl
  | succ n ih =>
    intro s h2 h5
    rw [rowTicks, rowTicks, rowTick_setIr hrow h2]
    rcases rowTick_halted_or_step (opc := opc) (row := row) s with hh | hstep
    · rw [rowTicks_of_halted hh, rowTicks_of_halted (s := (rowTick opc row s).setIr v) hh]
    · cases n with
      | zero => rfl
      | succ n =>
        have hval : (rowTick opc row s).step.val = s.step.val + 1 := by
          rw [hstep, Fin.val_add]
          exact Nat.mod_eq_of_lt (by show s.step.val + 1 < 5; omega)
        exact ih (by omega) (by omega)

/-- Once a tick is completed, the bus field it began with is forgotten. -/
theorem rowTicks_setBus {s : State} (hr : s.halted = false) (hw : (row s.step).hlt = false) (n : Nat) (v : Byte) :
    rowTicks opc row (n + 1) (s.setBus v) = rowTicks opc row (n + 1) s := by
  rw [rowTicks, rowTicks, rowTick_of_running hr, rowTick_of_running (s := s.setBus v) hr]
  exact congrArg _ (tickWord_setBus hw s v)

/-- A row that halts at once only sets the latch. -/
theorem rowTicks_of_hlt {s : State} (hr : s.halted = false) (hw : (row s.step).hlt = true) (n : Nat) :
    rowTicks opc row (n + 1) s = s.halt := by
  rw [rowTicks, rowTick_of_running hr, tickWord_of_hlt hw, rowTicks_of_halted (halt_halted s)]

/-- From step 2, another byte in IR and on the bus stays in IR, and on the bus if the row is that of HLT. -/
theorem rowTicks_setIr_setBus (hopc : opc ∈ operandIgnoringOpcodes) {s : State} (hr : s.halted = false)
    (h2 : s.step = 2) (v : Byte) :
    rowTicks opc (defaultMicrocode opc) 3 ((s.setIr v).setBus v) =
      ((rowTicks opc (defaultMicrocode opc) 3 s).setIr v).setBus
        (if opc = defaultOpcodeMap .hlt then v else (rowTicks opc (defaultMicrocode opc) 3 s).bus) := by
  by_cases hhlt : opc = defaultOpcodeMap .hlt
  · have hw : (defaultMicrocode opc s.step).hlt = true := (defaultMicrocode_hlt _ _).2 ⟨h2, hhlt⟩
    rw [rowTicks_of_hlt hr hw, rowTicks_of_hlt (s := (s.setIr v).setBus v) hr hw, if_pos hhlt]
    rfl
  · have hw : (defaultMicrocode opc s.step).hlt = false :=
      Bool.eq_false_iff.2 fun hw => hhlt ((defaultMicrocode_hlt _ _).1 hw).2
    rw [rowTicks_setBus (s := s.setIr v) hr hw,
      rowTicks_setIr (leavesIrAlone_defaultMicrocode hopc) v 3 (by rw [h2]; decide) (by rw [h2]; decide), if_neg hhlt]
    exact (setBus_self _).symm

end Rows

theorem eq_zero_or_one_of_lt_two {st : MicroStep} (h : st.val < 2) : st = 0 ∨ st = 1 := by
  revert st; decide

/-- Begun before the end of the fetch, two bytes differ in IR and on the bus only. -/
theorem fetchInto_byte_of_step_lt_two {s : State} (x y : Byte) (h : s.step.val < 2) :
    fetchInto y s = ((fetchInto x s).setIr y).setBus y := by
  rcases eq_zero_or_one_of_lt_two h with h0 | h1
  · simp only [fetchInto, h0, if_true]; rfl
  · simp only [fetchInto, h1, if_true, if_neg (by decide : ¬ (1 : MicroStep) = 0)]; rfl

/-- Begun past the fetch, two bytes differ in IR only. -/
theorem fetchInto_byte_of_two_le_step {s : State} (x y : Byte) (h : 2 ≤ s.step.val) :
    fetchInto y s = (fetchInto x s).setIr y := by
  rw [fetchInto_of_two_le_step _ h, fetchInto_of_two_le_step _ h]; rfl

section Ignored

variable {opc : Nibble} {s t u : State} {x y : Byte} (hopc : opc ∈ operandIgnoringOpcodes) (hr : s.halted = false)
  (ht : execRow opc (defaultMicrocode opc) x s = .next t) (hu : execRow opc (defaultMicrocode opc) y s = .next u)
include hopc hr ht hu

/-- Past the fetch, the run of an operand-ignoring row on another byte differs in IR only. -/
theorem execRow_byte_of_two_le_step (h2 : 2 ≤ s.step.val) : u = t.setIr y := by
  rw [execRow_of_running hr] at ht hu
  injection ht with ht
  injection hu with hu
  rw [← ht, ← hu, fetchInto_byte_of_two_le_step x y h2, setIr_step]
  have hstep : 2 ≤ (fetchInto x s).step.val := by rw [fetchInto_of_two_le_step _ h2]; exact h2
  exact rowTicks_setIr (leavesIrAlone_defaultMicrocode hopc) y _ hstep (by omega)

/-- From within the fetch, the run on another byte differs in IR, and on the bus if the row halts at once. -/
theorem execRow_byte_of_step_lt_two (h2 : s.step.val < 2) :
    u = (t.setIr y).setBus (if opc = defaultOpcodeMap .hlt then y else t.bus) := by
  have hstep := fetchInto_step_of_le_two x (Nat.le_of_lt h2)
  rw [execRow_of_running hr] at ht hu
  injection ht with ht
  injection hu with hu
  rw [fetchInto_byte_of_step_lt_two x y h2, setBus_step, setIr_step] at hu
  rw [hstep] at ht hu
  rw [← hu, ← ht]
  exact rowTicks_setIr_setBus hopc (by rw [fetchInto_halted, hr]) hstep y

/-- What another byte can change in the run of an operand-ignoring row. -/
theorem execRow_byte :
    u = { t with ir := y, bus := u.bus } ∧ (opc ≠ defaultOpcodeMap .hlt ∨ 2 ≤ s.step.val → u.bus = t.bus) := by
  by_cases h2 : 2 ≤ s.step.val
  · rw [execRow_byte_of_two_le_step hopc hr ht hu h2]
    exact ⟨rfl, fun _ => rfl⟩
  · rw [execRow_byte_of_step_lt_two hopc hr ht hu (by omega)]
    exact ⟨rfl, fun h => if_neg (h.resolve_right h2)⟩

end Ignored

/-- Settles O39: the two runs are those of one operand-ignoring row on two bytes; a run beside itself shows the byte
IR is left with. -/
theorem ignoredOperandBitsHaveNoEffect : Obligations.IgnoredOperandBitsHaveNoEffect := by
  intro mk hmk x y s t u ht hu
  obtain ⟨opc, hopc, hmkopc⟩ := opcode_of_ignored_operand hmk
  rw [exec_eq_execRow, hmkopc] at ht hu
  cases hr : s.halted
  · obtain ⟨halike, hbus⟩ := execRow_byte hopc hr ht hu
    have htir : t.ir = encode (mk x) := congrArg State.ir (execRow_byte hopc hr ht ht).1
    have huir : u.ir = encode (mk y) := congrArg State.ir halike
    refine ⟨?_, fun h => hbus (h.imp_left fun hne => ?_), fun _ => ⟨htir, huir⟩⟩
    · rw [huir]; exact halike
    · rw [← hmkopc x]; exact opcode_ne_of_ne_hlt hne
  · rw [execRow_halted hr] at ht hu
    cases ht
    cases hu
    exact ⟨rfl, fun _ => rfl, fun h => nomatch h⟩

end Sys2Proof.Machine
end

section
/-! PROOFS of the statements on the datapath (40_datapath.md): the ALU, the four-bit truncation and the counter. -/

namespace Sys2Proof.Machine

/-! ## The ALU, adding and subtracting -/

section Alu

variable (a b : Byte)

@[simp] theorem alu_add_fst : (alu a b false).1 = a + b := rfl
@[simp] theorem alu_sub_fst : (alu a b true).1 = a - b := rfl

/-- Adding, the carry is unsigned overflow (40_datapath.md R75). -/
@[simp] theorem alu_add_snd_iff : (alu a b false).2 = true ↔ 256 ≤ a.toNat + b.toNat := decide_eq_true_iff

/-- Subtracting, the carry is the borrow (40_datapath.md R76). -/
@[simp] theorem alu_sub_snd_iff : (alu a b true).2 = true ↔ a.toNat < b.toNat := decide_eq_true_iff

theorem alu_sub_snd_of_le (h : b.toNat ≤ a.toNat) : (alu a b true).2 = false := by
  rw [Bool.eq_false_iff, Ne, alu_sub_snd_iff]
  exact Nat.not_lt.2 h

/-- Equal operands cancel, and nothing is borrowed. -/
theorem alu_sub_self : alu a a true = (0, false) :=
  Prod.ext (BitVec.sub_self a) (alu_sub_snd_of_le a a le_rfl)

/-- The difference of two bytes is the difference of their numbers modulo 256, also below zero. -/
theorem toNat_byte_sub : ((a - b).toNat : Int) = ((a.toNat : Int) - b.toNat) % 256 := by
  have ha := a.isLt
  have hb := b.isLt
  rw [BitVec.toNat_sub]
  omega

end Alu

/-- Settles O6: the sum and the difference as numbers, each with its carry; the last two clauses are the cases without
a borrow. -/
theorem aluAddsAndSubtractsModulo256 : Obligations.AluAddsAndSubtractsModulo256 := by
  refine ⟨fun a b => ⟨?_, alu_add_snd_iff a b⟩, fun a b => ⟨?_, alu_sub_snd_iff a b, ?_, fun hgt => ?_⟩⟩
  · rw [alu_add_fst, BitVec.toNat_add]
  · rw [alu_sub_fst, toNat_byte_sub]
  · rintro rfl; exact alu_sub_self a
  · exact alu_sub_snd_of_le a b hgt.le

/-! ## The four-bit truncation -/

/-- Truncating keeps the low four bits and clears the others: both sides are the number modulo 16. -/
theorem setWidth_trunc4 (x : Byte) : (trunc4 x).setWidth 8 = x &&& 0x0F := by
  apply BitVec.eq_of_toNat_eq
  rw [trunc4, BitVec.toNat_setWidth_of_le (by decide), BitVec.toNat_setWidth, BitVec.toNat_and]
  exact (Nat.and_two_pow_sub_one_eq_mod x.toNat 4).symm

/-- The operand field is the truncated byte. -/
theorem operandField_eq_trunc4 (ir : Byte) : operandField ir = trunc4 ir :=
  BitVec.eq_of_toNat_eq (by simp [operandField, trunc4])

/-- The counter's wrap from 15 to 0 is the truncation of the 8-bit increment. -/
theorem trunc4_setWidth_add_one (n : Nibble) : trunc4 (n.setWidth 8 + 1#8) = n + 1 := by
  apply BitVec.eq_of_toNat_eq
  simp [trunc4]

/-! ## Where the tick truncates -/

/-- Without the jump flag no jump is taken (42_cycle_engine.md R99). -/
theorem jumpTaken_of_unset {P : Params} {opc : Nibble} {cw : ControlWord} {s : State} (hj : cw.j = false) :
    jumpTaken P opc cw s = false := by
  simp [jumpTaken, hj]

/-- The jump flag jumps unconditionally under every opcode but those of JC and JZ (42_cycle_engine.md R99). -/
theorem jumpTaken_of_unconditional {P : Params} {opc : Nibble} {cw : ControlWord} {s : State} (hj : cw.j = true)
    (hjc : opc ≠ P.opcodeMap .jc) (hjz : opc ≠ P.opcodeMap .jz) : jumpTaken P opc cw s = true := by
  simp [jumpTaken, hj, hjc, hjz]

section Tick

variable {P : Params} {opc : Nibble} {cw : ControlWord} {s : State} (hw : cw.hlt = false)
include hw

/-- Memory-address-in writes the truncated bus to MA (42_cycle_engine.md R97). -/
theorem tickWord_ma_of_mi (hmi : cw.mi = true) : (tickWord P opc cw s).ma = trunc4 (tickWord P opc cw s).bus := by
  rw [tickWord, tickDelivering_ma hw, tickDelivering_bus hw, tickMa, if_pos hmi]

/-- A taken jump, conditional or not, writes the truncated bus to PC (42_cycle_engine.md R99, R100). -/
theorem tickWord_pc_of_jumpTaken (hjump : jumpTaken P opc cw s = true) :
    (tickWord P opc cw s).pc = trunc4 (tickWord P opc cw s).bus := by
  rw [tickWord, tickDelivering_pc hw, tickDelivering_bus hw, if_pos hjump]

/-- Without a jump, PC is as the counter left it (42_cycle_engine.md R91). -/
theorem tickWord_pc_of_no_jump (hj : cw.j = false) : (tickWord P opc cw s).pc = pcCounted cw s := by
  rw [tickWord, tickDelivering_pc hw, jumpTaken_of_unset hj, if_neg Bool.false_ne_true]

end Tick

/-- Settles O7: MA, PC after a jump and the operand byte are each a truncation, and so is the counter's increment. -/
theorem truncationKeepsLowFourBits : Obligations.TruncationKeepsLowFourBits := by
  refine ⟨setWidth_trunc4, fun P opc cw s hw => ⟨fun hmi => ?ma, fun hj hjc hjz => ?jump, fun hce hj => ?count⟩,
    fun P opc s => ?operand⟩
  case ma => rw [tickWord_ma_of_mi hw hmi, setWidth_trunc4]
  case jump => rw [tickWord_pc_of_jumpTaken hw (jumpTaken_of_unconditional hj hjc hjz), setWidth_trunc4]
  case count => rw [tickWord_pc_of_no_jump hw hj, pcCounted, if_pos hce, ← trunc4_setWidth_add_one, setWidth_trunc4]
  case operand =>
    have hbus : (tickWord P opc { io := true } s).bus = operandByte s.ir := tickDelivering_bus rfl
    rw [hbus, operandByte, operandField_eq_trunc4, zext8, setWidth_trunc4]

end Sys2Proof.Machine
end

section
/-! PROOFS of the statements on the microcode (41_microcode.md): the fetch at the head of every row. -/

namespace Sys2Proof.Machine

/-- Settles O17: the two fetch words head every row, and the fetch ticks are read off the states they end in. -/
theorem everyRowBeginsWithFetch : Obligations.EveryRowBeginsWithFetch := by
  refine ⟨fun opc => ⟨defaultMicrocode_zero opc, defaultMicrocode_one opc⟩, fun s hr h0 => ?address, fun s hr h1 => ?load⟩
  case address => simp [tick_of_step_zero hr h0]
  case load => simp [tick_of_step_one hr h1, BitVec.toNat_add]

end Sys2Proof.Machine
end

section
/-! PROOFS of the statements on the cycle engine (42_cycle_engine.md). First each phase of the tick, read off its
definition, then the fields of the state after a tick that does not halt, then each statement. -/

namespace Sys2Proof.Machine

/-! ## The phases of the tick -/

section Phases

variable {cw : ControlWord} {s : State}

/-- With flags-in, Carry is the ALU's, whatever it was (42_cycle_engine.md R92). -/
theorem tickCarry_of_fi (hfi : cw.fi = true) : tickCarry cw s = (alu s.a s.b cw.su).2 := if_pos hfi

/-- With flags-in, Zero is set for the sum 0 only, whatever it was (42_cycle_engine.md R94). -/
theorem tickZero_iff_of_fi (hfi : cw.fi = true) : tickZero cw s = true ↔ (alu s.a s.b cw.su).1 = 0 := by
  rw [tickZero, flagAfter, if_pos hfi, zeroOf, beq_iff_eq, tickSum]

/-- Phase 8 overwrites the bus source by source, so the source listed last decides (42_cycle_engine.md R95). -/
theorem tickBus_eq_last_source (cw : ControlWord) (memOut : Byte) (s : State) :
    tickBus cw memOut s =
      if cw.co then zext8 (pcCounted cw s) else if cw.eo then tickSum cw s else if cw.ao then s.a
      else if cw.io then operandByte s.ir else if cw.ro then memOut else 0 := rfl

/-- Instruction-out drives the low four bits of IR (30_encoding.md R61). -/
theorem operandByte_eq_and (ir : Byte) : operandByte ir = ir &&& 0x0F := by
  rw [operandByte, operandField_eq_trunc4, zext8, setWidth_trunc4]

/-- Memory-write changes the one entry at MA as the same phase left it (42_cycle_engine.md R98). -/
theorem memRead_tickMem (cw : ControlWord) (bus : Byte) (s : State) (addr : Nibble) :
    memRead (tickMem cw bus s) addr = if cw.ri = true ∧ addr = tickMa cw bus s then bus else memRead s.mem addr := by
  cases hri : cw.ri <;> simp [tickMem, hri]

/-- Under the opcode of a conditional jump, the jump flag jumps on that jump's flag (42_cycle_engine.md R100). -/
theorem jumpTaken_iff_of_conditional {P : Params} {opc : Nibble} (hj : cw.j = true)
    (hopc : opc = P.opcodeMap .jc ∨ opc = P.opcodeMap .jz) :
    jumpTaken P opc cw s = true ↔
      (opc = P.opcodeMap .jc ∧ tickCarry cw s = true) ∨ (opc = P.opcodeMap .jz ∧ tickZero cw s = true) := by
  rw [jumpTaken, hj, if_pos hopc]
  simp

end Phases

/-! ## The state after a tick that does not halt -/

section Tick

variable {P : Params} {opc : Nibble} {cw : ControlWord} {s : State} (hw : cw.hlt = false)
include hw

theorem tickWord_bus : (tickWord P opc cw s).bus = tickBus cw (memRead s.mem s.ma) s := tickDelivering_bus hw

theorem tickWord_carry : (tickWord P opc cw s).carry = tickCarry cw s := tickDelivering_carry hw

theorem tickWord_zero : (tickWord P opc cw s).zero = tickZero cw s := tickDelivering_zero hw

theorem tickWord_step : (tickWord P opc cw s).step = s.step + 1 := tickDelivering_step hw

theorem tickWord_ma : (tickWord P opc cw s).ma = tickMa cw (tickWord P opc cw s).bus s := by
  rw [tickWord_bus hw]; exact tickDelivering_ma hw

theorem tickWord_mem : (tickWord P opc cw s).mem = tickMem cw (tickWord P opc cw s).bus s := by
  rw [tickWord_bus hw]; exact tickDelivering_mem hw

theorem tickWord_pc : (tickWord P opc cw s).pc =
    if jumpTaken P opc cw s then trunc4 (tickWord P opc cw s).bus else pcCounted cw s := by
  rw [tickWord_bus hw]; exact tickDelivering_pc hw

end Tick

/-- A running engine is halted by a tick whose word has the halt flag, and by no other. -/
theorem tick_halted_iff_hlt {s : State} (hr : s.halted = false) :
    (tick s).halted = true ↔ (defaultMicrocode (opcodeField s.ir) s.step).hlt = true := by
  rw [tick_of_running hr]
  cases hw : (defaultMicrocode (opcodeField s.ir) s.step).hlt
  case false => rw [tickWord, tickDelivering_halted hw, hr]
  case true => rw [tickWord_of_hlt hw, halt_halted]

/-! ## The statements -/

/-- Settles O43: decoding and encoding the current byte agree, so the instruction's own row gives the engine's ticks. -/
theorem stepIsTheEnginesTicks : Obligations.StepIsTheEnginesTicks := step_eq_ticks

/-- Settles O47: the halt flag stands in step 2 of HLT and nowhere else in the table. -/
theorem onlyHltHalts : Obligations.OnlyHltHalts := fun s hr =>
  (tick_halted_iff_hlt hr).trans (defaultMicrocode_hlt (opcodeField s.ir) s.step)

/-- Settles O8: the halting phase ends the tick before any other. -/
theorem haltFlagEndsTheTick : Obligations.HaltFlagEndsTheTick := fun _ _ _ _ => tickWord_of_hlt

/-- Settles O9: without a jump PC is what the counter left, and the 4-bit increment wraps. -/
theorem counterEnableIncrementsPc : Obligations.CounterEnableIncrementsPc := by
  intro P opc cw s hw hj
  rw [tickWord_pc_of_no_jump hw hj, pcCounted]
  refine ⟨fun hce => ?_, fun hce => ?_⟩
  · rw [if_pos hce, BitVec.toNat_add]; rfl
  · rw [hce, if_neg Bool.false_ne_true]

/-- Settles O10: by whether the tick halts; if not, by flags-in. -/
theorem flagsInOverwritesBothFlags : Obligations.FlagsInOverwritesBothFlags := by
  refine fun P opc cw s => ⟨fun hw hfi => ?_, ?_⟩
  · rw [tickWord_carry hw, tickWord_zero hw]
    exact ⟨tickCarry_of_fi hfi, tickZero_iff_of_fi hfi⟩
  · rintro (hw | hfi)
    · rw [tickWord_of_hlt hw]
      exact ⟨halt_carry s, halt_zero s⟩
    · exact ⟨tickDelivering_carry_of_unset hfi, tickDelivering_zero_of_unset hfi⟩

/-- Settles O11: the sources from the last listed to the first, then the empty bus. -/
theorem lastListedBusSourceWins : Obligations.LastListedBusSourceWins := by
  intro P opc cw s hw
  rw [tickWord_bus hw, tickBus_eq_last_source, operandByte_eq_and]
  refine ⟨fun hco => if_pos hco, fun hco heo => ?sum, fun hco heo hao => ?accumulator,
    fun hco heo hao hio => ?instruction, fun hco heo hao hio hro => ?memory, fun hco heo hao hio hro => ?none⟩
  case sum => simp [hco, heo, tickSum]
  case accumulator => simp [hco, heo, hao]
  case instruction => simp [hco, heo, hao, hio]
  case memory => simp [hco, heo, hao, hio, hro]
  case none => simp [hco, heo, hao, hio, hro]

/-- Settles O12: the five registers are the sinks' own fields, and memory is read back after phase 9's write. -/
theorem sinksTakeTheBus : Obligations.SinksTakeTheBus := by
  intro P opc cw s hw
  refine ⟨?a, ?b, ?out, ?ir, tickWord_ma hw, fun addr => ?mem⟩
  case a => rw [tickWord_bus hw]; exact tickDelivering_a hw
  case b => rw [tickWord_bus hw]; exact tickDelivering_b hw
  case out => rw [tickWord_bus hw]; exact tickDelivering_out hw
  case ir => rw [tickWord_bus hw]; exact tickDelivering_ir hw
  case mem => rw [tickWord_mem hw, memRead_tickMem, tickWord_ma hw]

/-- Settles O13: an unconditional opcode always jumps, a conditional one exactly on its flag as the tick leaves it. -/
theorem jumpResolution : Obligations.JumpResolution := by
  refine fun P opc cw s hw hj => ⟨fun hjc hjz => ?_, fun hopc => ?_⟩
  · exact tickWord_pc_of_jumpTaken hw (jumpTaken_of_unconditional hj hjc hjz)
  · rw [tickWord_pc hw, tickWord_carry hw, tickWord_zero hw]
    exact if_congr (jumpTaken_iff_of_conditional hj hopc) rfl rfl

/-- Settles O14: the advance is the addition of `Fin 5`, whose value is below 5. -/
theorem stepAdvancesModulo5 : Obligations.StepAdvancesModulo5 := by
  intro P opc cw s hw
  rw [tickWord_step hw]
  exact ⟨Fin.val_add s.step 1, (s.step + 1).isLt.ne⟩

end Sys2Proof.Machine
end

section
/-! PROOFS of the statements on data transfer (43_data_transfer.md). First an instruction from a boundary as its three
execution words on the fetched state, then the words of LDA, LDI and OUT as whole states, then each statement. -/

namespace Sys2Proof.Machine

/-! ## An instruction from a boundary -/

/-- The byte of an instruction drives its operand, zero-extended (30_encoding.md R61). -/
@[simp] theorem operandByte_encode (i : Instr) : operandByte (encode i) = i.operand.setWidth 8 := by
  rw [operandByte, operandField_encode, zext8]

theorem tickWord_halted {P : Params} {opc : Nibble} {cw : ControlWord} {s : State} (hw : cw.hlt = false) :
    (tickWord P opc cw s).halted = s.halted := tickDelivering_halted hw

/-- From step 2, a row whose words of steps 2 and 3 do not halt runs its three execution words in order. -/
theorem rowTicks_rowOf_of_step_two {opc : Nibble} {w2 w3 w4 : ControlWord} {s : State} (hr : s.halted = false)
    (h2 : s.step = 2) (hw2 : w2.hlt = false) (hw3 : w3.hlt = false) :
    rowTicks opc (rowOf w2 w3 w4) 3 s =
      tickWord defaultParams opc w4 (tickWord defaultParams opc w3 (tickWord defaultParams opc w2 s)) := by
  have hr3 := (tickWord_halted (P := defaultParams) (opc := opc) hw2).trans hr
  have hr4 := (tickWord_halted (P := defaultParams) (opc := opc) hw3).trans hr3
  simp only [rowTicks, rowTick_of_running hr, h2, rowOf, rowTick_of_running hr3, rowTick_of_running hr4,
    tickWord_step hw2, tickWord_step hw3, Fin.reduceAdd]

/-- An instruction run from a boundary is its row's execution words on the fetched state (43_data_transfer.md R107). -/
theorem exec_of_atBoundary {i : Instr} {w2 w3 w4 : ControlWord} {s : State} (hb : AtBoundary s)
    (hrow : defaultMicrocode i.opcode = rowOf w2 w3 w4) (hw2 : w2.hlt = false) (hw3 : w3.hlt = false) :
    exec i s = .next (tickWord defaultParams i.opcode w4 (tickWord defaultParams i.opcode w3
      (tickWord defaultParams i.opcode w2
        { s with ma := s.pc, pc := s.pc + 1, ir := encode i, step := 2, bus := encode i, sum := s.a + s.b,
                 cw := 0x1408 }))) := by
  obtain ⟨hr, h0⟩ := hb
  rw [exec_eq_execRow, hrow, execRow_boundary hr h0, rowTicks_rowOf_of_step_two _ rfl hw2 hw3]
  exact hr

/-! ## The words of LDA, LDI and OUT, as whole states: on a literal word every phase of the tick computes -/

/-- `RO AI`: A takes the entry at MA (42_cycle_engine.md R95, R97). -/
theorem tickWord_loadA (P : Params) (opc : Nibble) (s : State) :
    tickWord P opc { ro := true, ai := true } s =
      { s with a := memRead s.mem s.ma, step := s.step + 1, bus := memRead s.mem s.ma, sum := s.a + s.b,
               cw := cwNumber P.cwBits { ro := true, ai := true } } := rfl

/-- `IO AI`: A takes the operand in IR, zero-extended (42_cycle_engine.md R95, R97). -/
theorem tickWord_operandToA (P : Params) (opc : Nibble) (s : State) :
    tickWord P opc { io := true, ai := true } s =
      { s with a := operandByte s.ir, step := s.step + 1, bus := operandByte s.ir, sum := s.a + s.b,
               cw := cwNumber P.cwBits { io := true, ai := true } } := rfl

/-- `AO OI`: the Output register takes A (42_cycle_engine.md R95, R97). -/
theorem tickWord_outputA (P : Params) (opc : Nibble) (s : State) :
    tickWord P opc { ao := true, oi := true } s =
      { s with out := s.a, step := s.step + 1, bus := s.a, sum := s.a + s.b,
               cw := cwNumber P.cwBits { ao := true, oi := true } } := rfl

/-! ## The statements -/

/-- Settles O25: STA's run as a whole state, and what its one write does to each entry. -/
theorem staStoresTheAccumulator : Obligations.StaStoresTheAccumulator :=
  fun n s hb => ⟨exec_sta_of_atBoundary n hb, fun addr => memRead_memWrite s.mem n s.a addr⟩

/-- Settles O24: MA takes the operand, A the entry there, and the last word has no action. -/
theorem ldaLoadsTheEntry : Obligations.LdaLoadsTheEntry := by
  intro n s hb
  rw [exec_of_atBoundary hb rfl rfl rfl, tickWord_operandAddress, tickWord_loadA, tickWord_noAction, hb.2,
    operandField_encode]
  rfl

/-- Settles O26: A takes the operand in IR, and the last two words have no action. -/
theorem ldiLoadsTheOperand : Obligations.LdiLoadsTheOperand := by
  intro n s hb
  rw [exec_of_atBoundary hb rfl rfl rfl, tickWord_operandToA, tickWord_noAction, tickWord_noAction, hb.2,
    operandByte_encode]
  rfl

/-- Settles O27: the Output register takes A, and the last two words have no action. -/
theorem outWritesTheOutputRegister : Obligations.OutWritesTheOutputRegister := by
  intro x s hb
  rw [exec_of_atBoundary hb rfl rfl rfl, tickWord_outputA, tickWord_noAction, tickWord_noAction, hb.2]
  rfl

end Sys2Proof.Machine
end

section
/-! PROOFS of the statements on arithmetic (44_arithmetic.md). First the Zero flag of a sum and of a difference, then
the two words ADD and SUB do not share with the other instructions, then their common run, then each statement. -/

namespace Sys2Proof.Machine

/-! ## The Zero flag, as numbers -/

/-- Adding, Zero is set when the sum of the numbers is a multiple of 256 (44_arithmetic.md R113). -/
theorem zeroOf_add (a b : Byte) : zeroOf (a + b) = decide ((a.toNat + b.toNat) % 256 = 0) := by
  rw [zeroOf, beq_eq_decide, ← BitVec.toNat_add]
  exact decide_eq_decide.2 BitVec.toNat_inj.symm

/-- Subtracting, Zero is set when the operands are equal (44_arithmetic.md R114). -/
theorem zeroOf_sub (a b : Byte) : zeroOf (a - b) = decide (a = b) := by
  rw [zeroOf, beq_eq_decide]
  exact decide_eq_decide.2 sub_eq_zero

/-! ## The words of ADD and SUB, as whole states -/

/-- `RO BI`: B takes the entry at MA; the sum is still that of the old B (42_cycle_engine.md R93, R97). -/
theorem tickWord_loadB (P : Params) (opc : Nibble) (s : State) :
    tickWord P opc { ro := true, bi := true } s =
      { s with b := memRead s.mem s.ma, step := s.step + 1, bus := memRead s.mem s.ma, sum := s.a + s.b,
               cw := cwNumber P.cwBits { ro := true, bi := true } } := rfl

/-- `EO AI FI`, with `SU` or without: A takes the ALU's result and the flags are computed anew (42_cycle_engine.md
R92 to R94, R97). -/
theorem tickWord_aluToA (P : Params) (opc : Nibble) (sub : Bool) (s : State) :
    tickWord P opc { eo := true, ai := true, su := sub, fi := true } s =
      { s with a := (alu s.a s.b sub).1, carry := (alu s.a s.b sub).2, zero := zeroOf (alu s.a s.b sub).1,
               step := s.step + 1, bus := (alu s.a s.b sub).1, sum := (alu s.a s.b sub).1,
               cw := cwNumber P.cwBits { eo := true, ai := true, su := sub, fi := true } } := rfl

/-- The one run of ADD and SUB from a boundary: B takes the entry at the operand, A and the flags the ALU's result on A
and that entry (44_arithmetic.md R112). -/
theorem exec_alu_of_atBoundary {i : Instr} {sub : Bool} {s : State} (hb : AtBoundary s)
    (hrow : defaultMicrocode i.opcode = rowOf { io := true, mi := true } { ro := true, bi := true }
      { eo := true, ai := true, su := sub, fi := true }) :
    exec i s = .next { s with
      a := (alu s.a (memRead s.mem i.operand) sub).1, b := memRead s.mem i.operand,
      carry := (alu s.a (memRead s.mem i.operand) sub).2, zero := zeroOf (alu s.a (memRead s.mem i.operand) sub).1,
      ma := i.operand, pc := s.pc + 1, ir := encode i,
      bus := (alu s.a (memRead s.mem i.operand) sub).1, sum := (alu s.a (memRead s.mem i.operand) sub).1,
      cw := cwNumber defaultCwBits { eo := true, ai := true, su := sub, fi := true } } := by
  rw [exec_of_atBoundary hb hrow rfl rfl, tickWord_operandAddress, tickWord_loadB, tickWord_aluToA, hb.2,
    operandField_encode]
  rfl

/-! ## The statements -/

/-- Settles O28: the common run without `SU`; the ALU adds and Zero is the sum's. -/
theorem addAddsTheEntry : Obligations.AddAddsTheEntry := by
  intro n s hb
  rw [exec_alu_of_atBoundary (sub := false) hb rfl, alu_add_fst, zeroOf_add]
  rfl

/-- Settles O29: the common run with `SU`; equal operands borrow nothing, so Carry and Zero exclude each other. -/
theorem subSubtractsTheEntry : Obligations.SubSubtractsTheEntry := by
  refine fun n s hb => ⟨?run, fun ⟨hlt, heq⟩ => hlt.ne (congrArg BitVec.toNat heq)⟩
  rw [exec_alu_of_atBoundary (sub := true) hb rfl, alu_sub_fst, zeroOf_sub]
  rfl

end Sys2Proof.Machine
end

section
/-! PROOFS of the statements on control (45_control.md). First the jump word as a whole state and when it jumps, then
the runs from a boundary that several instructions share, then each statement. -/

namespace Sys2Proof.Machine

/-! ## The jump word -/

/-- The operand byte keeps the whole operand when a 4-bit register takes it (40_datapath.md R73). -/
@[simp] theorem trunc4_operandByte (ir : Byte) : trunc4 (operandByte ir) = operandField ir := by
  simp [trunc4, operandByte, zext8]

/-- The word of step 2 in the rows of JMP, JC and JZ. -/
def jumpWord : ControlWord := { io := true, j := true }

/-- `IO J`: PC takes the operand in IR if the jump is taken (42_cycle_engine.md R95, R99). -/
theorem tickWord_jumpWord (P : Params) (opc : Nibble) (s : State) :
    tickWord P opc jumpWord s =
      { s with pc := if jumpTaken P opc jumpWord s then operandField s.ir else s.pc, step := s.step + 1,
               bus := operandByte s.ir, sum := s.a + s.b, cw := cwNumber P.cwBits jumpWord } := by
  rw [← trunc4_operandByte]
  rfl

/-- Under JMP's opcode the jump word always jumps (42_cycle_engine.md R99). -/
theorem jumpTaken_jmp (s : State) : jumpTaken defaultParams (defaultOpcodeMap .jmp) jumpWord s = true :=
  jumpTaken_of_unconditional rfl (by decide) (by decide)

/-- Under JC's opcode the jump word jumps if Carry is set (42_cycle_engine.md R100). -/
theorem jumpTaken_jc (s : State) : jumpTaken defaultParams (defaultOpcodeMap .jc) jumpWord s = s.carry := by
  refine Bool.eq_iff_iff.2 ((jumpTaken_iff_of_conditional rfl (.inl rfl)).trans ?_)
  exact ⟨fun h => h.elim And.right fun hz => absurd hz.1 (by decide), fun h => .inl ⟨rfl, h⟩⟩

/-- Under JZ's opcode the jump word jumps if Zero is set (42_cycle_engine.md R100). -/
theorem jumpTaken_jz (s : State) : jumpTaken defaultParams (defaultOpcodeMap .jz) jumpWord s = s.zero := by
  refine Bool.eq_iff_iff.2 ((jumpTaken_iff_of_conditional rfl (.inr rfl)).trans ?_)
  exact ⟨fun h => h.elim (fun hc => absurd hc.1 (by decide)) And.right, fun h => .inr ⟨rfl, h⟩⟩

/-! ## Shared runs from a boundary -/

section Runs

variable {i : Instr} {s : State} (hb : AtBoundary s)
include hb

/-- The one run of NOP and the unassigned opcodes: the fetch, then three words with no action (45_control.md R116,
R121). -/
theorem exec_fetchOnly_of_atBoundary (hrow : defaultMicrocode i.opcode = rowFetchOnly) :
    exec i s = .next { s with
      ma := s.pc, pc := s.pc + 1, ir := encode i, bus := 0, sum := s.a + s.b, cw := 0x0000 } := by
  rw [exec_of_atBoundary hb hrow rfl rfl, tickWord_noAction, tickWord_noAction, tickWord_noAction, hb.2]
  rfl

/-- The one run of JMP, JC and JZ: the fetch, the jump word, taken or not on the flags as they stood, then two words
with no action (45_control.md R117 to R119). -/
theorem exec_jump_of_atBoundary {taken : Bool} (hrow : defaultMicrocode i.opcode = rowOf jumpWord {} {})
    (htaken : jumpTaken defaultParams i.opcode jumpWord s = taken) :
    exec i s = .next { s with
      ma := s.pc, pc := if taken then i.operand else s.pc + 1, ir := encode i,
      bus := 0, sum := s.a + s.b, cw := 0x0000 } := by
  rw [← htaken, exec_of_atBoundary hb hrow rfl rfl, tickWord_jumpWord, tickWord_noAction, tickWord_noAction,
    hb.2, operandField_encode]
  rfl

end Runs

/-! ## The statements -/

/-- Settles O32: the common run of the jumps, taken as Carry says. -/
theorem jcJumpsOnCarry : Obligations.JcJumpsOnCarry :=
  fun _ s hb => exec_jump_of_atBoundary hb rfl (jumpTaken_jc s)

/-- Settles O33: the common run of the jumps, taken as Zero says. -/
theorem jzJumpsOnZero : Obligations.JzJumpsOnZero :=
  fun _ s hb => exec_jump_of_atBoundary hb rfl (jumpTaken_jz s)

/-- Settles O31: the common run of the jumps, taken under every opcode but those of JC and JZ. -/
theorem jmpJumps : Obligations.JmpJumps :=
  fun n s hb => exec_jump_of_atBoundary (i := .jmp n) hb rfl (jumpTaken_jmp s)

/-- Settles O30: the fetch-only run on NOP's byte, whose opcode bits are 0. -/
theorem nopOnlyAdvances : Obligations.NopOnlyAdvances := by
  intro x s hb
  rw [exec_fetchOnly_of_atBoundary hb rfl, show encode (.nop x) = x.setWidth 8 from BitVec.zero_or]

/-- Settles O35: the unassigned opcodes share NOP's row, so from a boundary their one run differs in the byte in IR
only. -/
theorem unassignedOpcodesBehaveAsNop : Obligations.UnassignedOpcodesBehaveAsNop := by
  refine ⟨by decide, fun x s hb => ?run⟩
  have hrun {i : Instr} (hrow : defaultMicrocode i.opcode = rowFetchOnly) := exec_fetchOnly_of_atBoundary hb hrow
  exact ⟨_, hrun rfl, BitVec.toNat_add _ _, hrun rfl, hrun rfl, hrun rfl, hrun rfl, hrun rfl⟩

/-- Settles O34: the word of HLT's step 2 only sets the latch, so the rest is as the fetch left it. -/
theorem hltHaltsAtStepTwo : Obligations.HltHaltsAtStepTwo := by
  intro x s ⟨hr, h0⟩
  rw [exec_eq_execRow, execRow_boundary hr h0, rowTicks_of_hlt (by exact hr) rfl]
  rfl

end Sys2Proof.Machine
end

section
/-! PROOFS of the statements on exceptions (60_exceptions.md). First what an instruction, a run and the observer do in
a halted state, then each statement. -/

namespace Sys2Proof.Machine

/-! ## The halted state -/

section Halted

variable {s : State} (hh : s.halted = true)
include hh

/-- A halted engine runs no instruction (42_cycle_engine.md R87, R105). -/
theorem exec_of_halted (i : Instr) : exec i s = .next s := by
  rw [exec_eq_execRow, execRow_halted hh]

/-- A run from a halted state stays in it, however long. -/
theorem core_run_of_halted (n : Nat) : Sys2Proof.core.run n s = .next s := by
  induction n with
  | zero => exact core_run_zero s
  | succ n ih => rw [core_run_succ n (exec_of_halted hh _), ih]

/-- The observer of a halted engine is handed nothing (60_exceptions.md R132). -/
theorem emissions_of_halted (P : Params) (n : Nat) : emissions P n s = [] := by
  induction n with
  | zero => rfl
  | succ n ih => rw [emissions, emission_eq_none_iff.2 (.inl hh), tickWith_of_halted P hh, ih]; rfl

end Halted

/-! ## The statements -/

/-- Settles O48: one tick and one instruction keep a halted state and one tick emits nothing, so by induction no number
of them does more. -/
theorem haltedStateIsTerminal : Obligations.HaltedStateIsTerminal := by
  intro s hh
  exact ⟨ticks_of_halted hh, exec_of_halted hh _, exec_of_halted hh, core_run_of_halted hh,
    emissions_of_halted hh defaultParams⟩

/-- Settles O40: every instruction runs its row of the table, and no run of a row faults or is refused. -/
theorem everyInstructionCompletes : Obligations.EveryInstructionCompletes := by
  intro i s
  rw [exec_eq_execRow]
  exact execRow_next _ _ _ s

end Sys2Proof.Machine
end

section
/-! PROOFS of the statements on reset and hazards (70_reset_and_hazards.md). First the image in memory, then the
ticks of an instruction one by one: the fetch, the counter and the latch, runs, and the execution words. Then each
statement. -/

namespace Sys2Proof.Machine

/-! ## Setup -/

/-- Setup leaves the engine at an instruction boundary (70_reset_and_hazards.md R138). -/
theorem atBoundary_setup (image : Vector Byte 16) : AtBoundary (setup image) := ⟨rfl, rfl⟩

/-- After setup each entry reads as its byte of the image (70_reset_and_hazards.md R135). -/
theorem memRead_setup (image : Vector Byte 16) (i : Fin 16) :
    memRead (setup image).mem (BitVec.ofFin i) = image[i] := by
  show memRead (imageMemory 0 image.toList) _ = _
  rw [memRead_imageMemory 0 _ (Nat.zero_le _), List.getD_eq_getElem _ _ (by simp)]
  simp

/-! ## The fetch ticks from a boundary -/

theorem ticks_succ_eq_tick (n : Nat) (s : State) : ticks (n + 1) s = tick (ticks n s) := ticks_add n 1 s

/-- The state at the end of a fetch from a boundary: MA holds the instruction's address, IR its byte, and PC has
advanced (41_microcode.md R82). -/
@[simps] def State.fetched (s : State) (byte : Byte) : State :=
  { s with ma := s.pc, pc := s.pc + 1, ir := byte, step := 2, bus := byte, sum := s.a + s.b, cw := 0x1408 }

section Boundary

variable {s : State} (hb : AtBoundary s)
include hb

/-- The first tick loads MA with PC and changes no other register. -/
theorem ticks_one_of_atBoundary :
    ticks 1 s = { s with ma := s.pc, step := 1, bus := zext8 s.pc, sum := s.a + s.b, cw := 0x4004 } :=
  tick_of_step_zero hb.1 hb.2

/-- The second tick ends the fetch of the entry at PC. -/
theorem ticks_two_of_atBoundary : ticks 2 s = s.fetched (memRead s.mem s.pc) := by
  rw [ticks_succ_eq_tick, ticks_one_of_atBoundary hb]
  exact tick_of_step_one hb.1 rfl

/-- A step from a boundary is five ticks. -/
theorem step_eq_ticks_five : Machine.step s = .next (ticks 5 s) := by
  have h := step_eq_ticks s
  rwa [hb.2] at h

end Boundary

/-! ## The step counter and the latch -/

/-- No row but HLT's has the halt flag (42_cycle_engine.md R90). -/
theorem defaultMicrocode_hlt_of_ne {opc : Nibble} (st : MicroStep) (h : opc ≠ 0xF) :
    (defaultMicrocode opc st).hlt = false :=
  Bool.eq_false_iff.2 fun hw => h ((defaultMicrocode_hlt opc st).1 hw).2

/-- Past the fetch of an instruction that is not HLT, each of its three ticks counts one step and halts nothing. -/
theorem ticks_of_step_two {t : State} (hr : t.halted = false) (h2 : t.step = 2) (hopc : opcodeField t.ir ≠ 0xF) :
    ∀ n ≤ 3, (ticks n t).halted = false ∧ (ticks n t).step.val = (n + 2) % 5 ∧ (ticks n t).ir = t.ir := by
  intro n
  induction n with
  | zero => exact fun _ => ⟨hr, congrArg Fin.val h2, rfl⟩
  | succ n ih =>
    intro hn
    obtain ⟨hrun, hstep, hir⟩ := ih (by omega)
    have hw := defaultMicrocode_hlt_of_ne (ticks n t).step (hir ▸ hopc)
    rw [ticks_succ_eq_tick, tick_ir (by omega), tick_step hrun hw, tick_of_running hrun, tickWord_halted hw,
      Fin.val_add, hstep]
    exact ⟨hrun, by simp, hir⟩

/-- Once halted, the engine takes no more ticks (45_control.md R120). -/
theorem ticks_eq_of_halted_of_le {s : State} {m n : Nat} (hmn : m ≤ n) (h : (ticks m s).halted = true) :
    ticks n s = ticks m s := by
  obtain ⟨d, rfl⟩ := Nat.exists_eq_add_of_le hmn
  rw [ticks_add, ticks_of_halted h]

/-- An engine that is running has been running after every smaller number of ticks. -/
theorem ticks_running_of_le {s : State} {m n : Nat} (hmn : m ≤ n) (h : (ticks n s).halted = false) :
    (ticks m s).halted = false := by
  cases hm : (ticks m s).halted
  · rfl
  · rw [ticks_eq_of_halted_of_le hmn hm, hm] at h
    exact h

/-- From a boundary with no HLT at PC, the step counter is the number of ticks taken, and the fifth reaches the next
boundary (41_microcode.md R84). -/
theorem ticks_of_ne_hlt {s : State} (hb : AtBoundary s) (hopc : opcodeField (memRead s.mem s.pc) ≠ 0xF) :
    (∀ k < 5, (ticks k s).step.val = k ∧ (ticks k s).halted = false) ∧ AtBoundary (ticks 5 s) := by
  have hexec : ∀ n ≤ 3, (ticks (n + 2) s).halted = false ∧ (ticks (n + 2) s).step.val = (n + 2) % 5 := by
    intro n hn
    have hsplit : ticks (n + 2) s = ticks n (ticks 2 s) := rfl
    rw [hsplit, ticks_two_of_atBoundary hb]
    obtain ⟨hrun, hstep, -⟩ := ticks_of_step_two (t := s.fetched (memRead s.mem s.pc)) hb.1 rfl hopc n hn
    exact ⟨hrun, hstep⟩
  refine ⟨fun k hk => ?_, (hexec 3 le_rfl).1, Fin.ext (hexec 3 le_rfl).2⟩
  match k with
  | 0 => exact ⟨congrArg Fin.val hb.2, hb.1⟩
  | 1 =>
    rw [ticks_one_of_atBoundary hb]
    exact ⟨rfl, hb.1⟩
  | n + 2 =>
    obtain ⟨hrun, hstep⟩ := hexec n (by omega)
    exact ⟨hstep.trans (Nat.mod_eq_of_lt hk), hrun⟩

/-- From a boundary with HLT at PC, the latch is set on the third tick (45_control.md R120). -/
theorem ticks_of_hlt {s : State} (hb : AtBoundary s) (hopc : opcodeField (memRead s.mem s.pc) = 0xF) :
    (ticks 2 s).halted = false ∧ (ticks 3 s).halted = true := by
  have hrun : (ticks 2 s).halted = false := by rw [ticks_two_of_atBoundary hb]; exact hb.1
  refine ⟨hrun, ?_⟩
  rw [ticks_succ_eq_tick, onlyHltHalts _ hrun, ticks_two_of_atBoundary hb]
  exact ⟨rfl, hopc⟩

/-! ## Runs -/

/-- A run of k instructions that does not end halted is 5k ticks, from a boundary to a boundary. -/
theorem core_run_eq_ticks {t : State} (ht : t.halted = false) (k : Nat) :
    ∀ {s : State}, AtBoundary s → Sys2Proof.core.run k s = .next t → ticks (5 * k) s = t ∧ AtBoundary t := by
  induction k with
  | zero =>
    intro s hb h
    rw [core_run_zero] at h
    injection h with h
    exact ⟨h, h ▸ hb⟩
  | succ k ih =>
    intro s hb h
    rw [core_run_succ k (step_eq_ticks_five hb)] at h
    have hrun : (ticks 5 s).halted = false := by
      cases hh : (ticks 5 s).halted
      · rfl
      · rw [core_run_of_halted hh] at h
        injection h with h
        rw [← hh, h, ht]
    have hopc : opcodeField (memRead s.mem s.pc) ≠ 0xF := fun hhlt => by
      have h3 := ticks_running_of_le (by decide : 3 ≤ 5) hrun
      rw [(ticks_of_hlt hb hhlt).2] at h3
      contradiction
    rw [Nat.mul_succ, Nat.add_comm, ticks_add]
    exact ih (ticks_of_ne_hlt hb hopc).2 h

/-! ## The execution ticks, as words of the row -/

section Words

variable {i : Instr} {w2 w3 w4 : ControlWord} {s : State} (hb : AtBoundary s)
  (hbyte : memRead s.mem s.pc = encode i) (hrow : defaultMicrocode i.opcode = rowOf w2 w3 w4)
include hb hbyte hrow

/-- The third tick is the row's word of step 2 on the fetched state. -/
theorem ticks_three_of_atBoundary :
    ticks 3 s = tickWord defaultParams i.opcode w2 (s.fetched (encode i)) := by
  rw [ticks_succ_eq_tick, ticks_two_of_atBoundary hb, hbyte, tick_of_running (by exact hb.1)]
  simp only [State.fetched, opcodeField_encode, hrow, rowOf]

/-- The fourth tick is the row's word of step 3 on the state the third left. -/
theorem ticks_four_of_atBoundary (hw2 : w2.hlt = false) :
    ticks 4 s = tickWord defaultParams i.opcode w3 (tickWord defaultParams i.opcode w2 (s.fetched (encode i))) := by
  have hir : (ticks 3 s).ir = encode i := by
    rw [ticks_succ_eq_tick, ticks_two_of_atBoundary hb, hbyte]
    exact tick_ir (s := s.fetched (encode i)) le_rfl
  have hthree := ticks_three_of_atBoundary hb hbyte hrow
  rw [ticks_succ_eq_tick, tick_of_running, hir, opcodeField_encode, hrow, hthree, tickWord_step hw2]
  · rfl
  · rw [hthree, tickWord_halted hw2]
    exact hb.1

end Words

/-- The third tick of JMP, JC and JZ moves PC to the operand if the jump is taken, on the flags as they stood
(45_control.md R117 to R119). -/
theorem ticks_three_pc_of_jump {i : Instr} {taken : Bool} {s : State} (hb : AtBoundary s)
    (hbyte : memRead s.mem s.pc = encode i) (hrow : defaultMicrocode i.opcode = rowOf jumpWord {} {})
    (htaken : jumpTaken defaultParams i.opcode jumpWord s = taken) :
    (ticks 3 s).pc = if taken then i.operand else s.pc + 1 := by
  rw [← htaken, ticks_three_of_atBoundary hb hbyte hrow, tickWord_jumpWord, State.fetched_ir, operandField_encode]
  rfl

/-- In ADD and SUB the entry at the operand reaches B on the fourth tick, and the ALU's result A and the flags on the
fifth (44_arithmetic.md R112). -/
theorem ticks_alu_of_atBoundary {i : Instr} {sub : Bool} {s : State} (hb : AtBoundary s)
    (hbyte : memRead s.mem s.pc = encode i)
    (hrow : defaultMicrocode i.opcode = rowOf { io := true, mi := true } { ro := true, bi := true }
      { eo := true, ai := true, su := sub, fi := true }) :
    (ticks 3 s).b = s.b ∧ (ticks 4 s).b = memRead s.mem i.operand ∧
    (ticks 4 s).a = s.a ∧ (ticks 4 s).carry = s.carry ∧ (ticks 4 s).zero = s.zero ∧
    (ticks 5 s).a = (alu s.a (memRead s.mem i.operand) sub).1 ∧
    (ticks 5 s).carry = (alu s.a (memRead s.mem i.operand) sub).2 ∧
    (ticks 5 s).zero = zeroOf (alu s.a (memRead s.mem i.operand) sub).1 := by
  have hfive : exec i s = .next (ticks 5 s) := by
    rw [← step_eq_ticks_five hb, step_of_currentByte ((currentByte_of_step_zero hb.2).trans hbyte)]
  injection hfive.symm.trans (exec_alu_of_atBoundary hb hrow) with hfive
  rw [ticks_three_of_atBoundary hb hbyte hrow, ticks_four_of_atBoundary hb hbyte hrow rfl, hfive,
    tickWord_operandAddress, tickWord_loadB]
  simp

/-! ## The statements -/

/-- Settles O20: all but memory is the reset state, and memory is the image. -/
theorem setupZeroesAllAndLoadsTheImage : Obligations.SetupZeroesAllAndLoadsTheImage := fun image =>
  ⟨rfl, rfl, rfl, rfl, rfl, rfl, rfl, rfl, rfl, rfl, rfl, rfl, rfl, memRead_setup image⟩

/-- Settles O22: setup ends at a boundary with PC 0, so the fetch and the step read entry 0. -/
theorem firstInstructionIsEntryZero : Obligations.FirstInstructionIsEntryZero := by
  intro image
  have hb := atBoundary_setup image
  have hbyte : memRead (setup image).mem (setup image).pc = image[0] := memRead_setup image 0
  rw [ticks_one_of_atBoundary hb, ticks_two_of_atBoundary hb, step_of_step_zero hb.2, hbyte]
  exact ⟨rfl, rfl, rfl, rfl, rfl⟩

/-- Settles O15: each order is what the phases of the one word, taken in the engine's order, leave. -/
theorem intraTickOrders : Obligations.IntraTickOrders := by
  intro P s hr hw
  rw [tickWith_of_running P hr]
  generalize lookup P s = cw at hw ⊢
  have hbus := lastListedBusSourceWins P (opcodeField s.ir) cw s hw
  have hjump := jumpResolution P (opcodeField s.ir) cw s hw
  refine ⟨fun hce hco => ?counterOut, fun hsrc _ => ?memoryOut, fun hmi hri => ?memoryWrite, fun hj _ => (hjump hj).1,
    fun hj hii => ⟨?instructionIn, hjump hj⟩, fun hfi hj hopc => ?flagsIn⟩
  case counterOut => rw [hbus.1 hco, if_pos hce]
  case memoryOut =>
    simp only [ControlWord.sources, List.cons.injEq] at hsrc
    obtain ⟨hro, hio, hao, heo, hco, -⟩ := hsrc
    rw [tickWord_bus hw, tickBus_eq_last_source]
    simp [hro, hio, hao, heo, hco]
  case memoryWrite =>
    rw [tickWord_mem hw, memRead_tickMem, tickMa, if_pos hmi]
    exact if_pos ⟨hri, rfl⟩
  case instructionIn => rw [tickWord_bus hw, tickWord, tickDelivering_ir hw, if_pos hii]
  case flagsIn =>
    rw [(hjump hj).2 hopc, tickWord_carry hw, tickWord_zero hw, tickCarry_of_fi hfi]
    exact if_congr (or_congr_right (and_congr_right' (tickZero_iff_of_fi hfi))) rfl rfl

/-- Settles O44: the fetch counts to step 2, and the execution ticks count on unless the first of them halts. -/
theorem ticksPerInstruction : Obligations.TicksPerInstruction := by
  refine fun s hb => ⟨ticks_of_ne_hlt hb, fun hopc => ?_⟩
  obtain ⟨h2, h3⟩ := ticks_of_hlt hb hopc
  exact ⟨h2, h3, fun k hk => ticks_eq_of_halted_of_le hk h3⟩

/-- Settles O45: the run is 5k ticks to a boundary, and HLT's third tick from there is the first that halts. -/
theorem runHaltsOnTick5kPlus3 : Obligations.RunHaltsOnTick5kPlus3 := by
  intro k s t hb hrun ht hopc
  obtain ⟨hticks, hbt⟩ := core_run_eq_ticks ht k hb hrun
  obtain ⟨h2, h3⟩ := ticks_of_hlt hbt hopc
  rw [← hticks, ← ticks_add] at h2 h3
  exact ⟨fun j hj => ticks_running_of_le (by omega) h2, h3⟩

/-- Settles O46: the fetch ticks hold for every byte, and each instruction's effect is read off its execution words. -/
theorem effectsLandOnTheirTicks : Obligations.EffectsLandOnTheirTicks := by
  intro s n hb
  have hone := ticks_one_of_atBoundary hb
  have htwo := ticks_two_of_atBoundary hb
  refine ⟨by rw [hone], by rw [hone], by rw [hone], by rw [htwo]; rfl, by rw [htwo]; rfl, fun h => ?jmp, fun h => ?jc,
    fun h => ?jz, fun h => ?lda, fun h => ?sta, fun h => ?ldi, fun h => ?out, fun h => ?add, fun h => ?sub⟩
  case jmp => exact ticks_three_pc_of_jump hb h rfl (jumpTaken_jmp s)
  case jc => exact ticks_three_pc_of_jump hb h rfl (jumpTaken_jc s)
  case jz => exact ticks_three_pc_of_jump hb h rfl (jumpTaken_jz s)
  case lda =>
    rw [ticks_four_of_atBoundary hb h rfl rfl, ticks_three_of_atBoundary hb h rfl, tickWord_operandAddress,
      tickWord_loadA]
    simp [Instr.operand]
  case sta =>
    rw [ticks_four_of_atBoundary hb h rfl rfl, ticks_three_of_atBoundary hb h rfl, tickWord_operandAddress,
      tickWord_storeA]
    simp [Instr.operand]
  case ldi =>
    rw [ticks_three_of_atBoundary hb h rfl, tickWord_operandToA, htwo]
    simp [Instr.operand]
  case out =>
    rw [ticks_three_of_atBoundary hb h rfl, tickWord_outputA, htwo]
    simp
  case add =>
    obtain ⟨hb3, hb4, ha4, hc4, hz4, ha5, hc5, hz5⟩ := ticks_alu_of_atBoundary (sub := false) hb h rfl
    refine ⟨hb3, hb4, ha4, hc4, hz4, ha5, ?_, ?_⟩
    · rw [hc5]; exact alu_add_snd_iff _ _
    · rw [hz5]; exact beq_iff_eq
  case sub =>
    obtain ⟨hb3, hb4, ha4, hc4, hz4, ha5, hc5, hz5⟩ := ticks_alu_of_atBoundary (sub := true) hb h rfl
    refine ⟨hb3, hb4, ha4, hc4, hz4, ha5, ?_, ?_⟩
    · rw [hc5]; exact alu_sub_snd_iff _ _
    · rw [hz5]; exact beq_iff_eq.trans sub_eq_zero

end Sys2Proof.Machine
end

section
/-! PROOFS of the remaining statements: the decoder's table and the assembler's check (30_encoding.md), setup
(70_reset_and_hazards.md), the canonical memory (10_state.md), and the invariant where a run begins. -/

namespace Sys2Proof.Machine

/-! ## The decoder's table -/

/-- The mask of the opcode table keeps the opcode. -/
theorem opcodeField_and_mask (b : Byte) : opcodeField (b &&& 0xF0) = opcodeField b := by
  revert b; decide +kernel

/-- A byte that meets the match of a row, the row's opcode over a zero operand, decodes by that row. -/
theorem decode_of_match (o : Nibble) {b : Byte} {rest : List Byte} (h : b &&& 0xF0 = packByte o 0) :
    decode (b :: rest) = .ok (decoderRows[o.toNat] (b.setWidth 4), rest) := by
  have hopc : opcodeField b = o := by rw [← opcodeField_and_mask, h, opcodeField_packByte]
  subst hopc
  rw [decode, decodeByte, operandField_eq_trunc4, trunc4]

/-- Settles O4: each match is its row's opcode over a zero operand. -/
theorem decoderFollowsOpcodeTable : Obligations.DecoderFollowsOpcodeTable := fun _ _ =>
  ⟨decode_of_match 0x0, decode_of_match 0x1, decode_of_match 0x2, decode_of_match 0x3, decode_of_match 0x4,
    decode_of_match 0x5, decode_of_match 0x6, decode_of_match 0x7, decode_of_match 0x8, decode_of_match 0x9,
    decode_of_match 0xA, decode_of_match 0xB, decode_of_match 0xC, decode_of_match 0xD, decode_of_match 0xE,
    decode_of_match 0xF⟩

/-- The word of an instruction's byte decodes to the instruction. -/
theorem decodeTableWord_encode (i : Instr) : decodeTableWord 8 (encode i).toNat = some i := by
  have hbytes : wordBytes 8 (encode i).toNat = [encode i] := by
    rw [wordBytes, if_pos le_rfl, Nat.mod_eq_of_lt (encode i).isLt, BitVec.ofNat_toNat, BitVec.setWidth_eq]
  rw [decodeTableWord, hbytes, decode, decodeByte_encode]

/-- Settles O3: each written word is the byte the encoder gives its instruction. -/
theorem writtenWordsDecode : Obligations.WrittenWordsDecode :=
  ⟨decodeTableWord_encode (.lda 14), decodeTableWord_encode (.sta 15), decodeTableWord_encode (.ldi 9),
    decodeTableWord_encode (.out 0), decodeTableWord_encode (.add 14), decodeTableWord_encode (.sub 13),
    decodeTableWord_encode (.jmp 3), decodeTableWord_encode (.jc 9), decodeTableWord_encode (.jz 5),
    decodeTableWord_encode (.nop 0), decodeTableWord_encode (.hlt 0), decodeTableWord_encode (.unassigned9 1),
    decodeTableWord_encode (.unassignedA 7), decodeTableWord_encode (.unassignedB 2),
    decodeTableWord_encode (.unassignedC 4), decodeTableWord_encode (.unassignedD 8)⟩

/-! ## The programs the assembler accepts -/

theorem exists_assembleLine_iff {l : SourceLine} : (∃ b, assembleLine l = .ok b) ↔ l.wf = true := by
  cases hwf : l.wf
  · simp [assembleLine, hwf]
  · cases l <;> simp [assembleLine, hwf]

/-- The lines' bytes are given exactly when each line's byte is. -/
theorem exists_assembleLines_cons_iff {l : SourceLine} {ls : List SourceLine} :
    (∃ bs, assembleLines (l :: ls) = .ok bs) ↔ (∃ b, assembleLine l = .ok b) ∧ ∃ bs, assembleLines ls = .ok bs := by
  cases hl : assembleLine l <;> cases hls : assembleLines ls <;> simp [assembleLines, hl, hls]

theorem exists_assembleLines_iff {ls : List SourceLine} :
    (∃ bs, assembleLines ls = .ok bs) ↔ ls.all SourceLine.wf = true := by
  induction ls with
  | nil => simp [assembleLines]
  | cons l ls ih => rw [exists_assembleLines_cons_iff, exists_assembleLine_iff, ih, List.all_cons, Bool.and_eq_true]

/-- The image of a program short enough is given exactly when its lines' bytes are; no other program has one. -/
theorem exists_assemble_iff {ls : List SourceLine} :
    (∃ image, assemble ls = .ok image) ↔ ls.length ≤ 16 ∧ ∃ bs, assembleLines ls = .ok bs := by
  by_cases hlen : ls.length ≤ 16
  · cases hls : assembleLines ls <;> simp [assemble, hlen, hls]
  · simp [assemble, hlen]

/-- An image has the program's lines and the zeros that fill it up to 16. -/
theorem length_of_assemble {ls : List SourceLine} {image : List Byte} (h : assemble ls = .ok image) :
    image.length = 16 := by
  have hle : ls.length ≤ 16 := (exists_assemble_iff.1 ⟨image, h⟩).1
  have hmap := congrArg List.length (map_toNat_of_assemble h)
  simp only [List.length_map, List.length_append, List.length_replicate] at hmap
  omega

/-- Settles O5: the assembler asks of a program what `programWf` asks, the length first and then each line. -/
theorem assemblerAcceptsWellFormedPrograms : Obligations.AssemblerAcceptsWellFormedPrograms := by
  refine fun ls => ⟨?_, fun image h => beq_iff_eq.2 (length_of_assemble h)⟩
  rw [exists_assemble_iff, exists_assembleLines_iff, programWf, Bool.and_eq_true, decide_eq_true_iff]

/-! ## The images setup takes -/

theorem imageOk_iff {bytes : List Byte} : imageOk bytes = true ↔ bytes.length = 16 := beq_iff_eq

/-- The default table passes its check, so a machine at the default parameters is set up as setup answers. -/
theorem configure_defaultParams (bytes : List Byte) : configure defaultParams bytes = setupRequest bytes :=
  if_pos (tableOk_iff.2 singleSource_defaultMicrocode)

theorem setupRequest_of_length_ne {bytes : List Byte} (h : bytes.length ≠ 16) :
    setupRequest bytes = .refused .imageLength :=
  if_neg (imageOk_iff.not.2 h)

theorem setupRequest_toList (image : Vector Byte 16) : setupRequest image.toList = .next (setup image) :=
  if_pos (imageOk_iff.2 image.length_toList)

/-- A zero byte of an image takes no cell. -/
theorem imageMemory_replicate_unlistedByte (n k : Nat) : imageMemory k (List.replicate n unlistedByte) = [] := by
  induction n generalizing k with
  | zero => rfl
  | succ n ih => rw [List.replicate_succ, imageMemory, if_pos rfl, ih]

/-- Settles O21: configuring adds nothing to setup, setup checks the length, and zero bytes leave memory empty. -/
theorem setupTakesExactlySixteenBytes : Obligations.SetupTakesExactlySixteenBytes := by
  refine ⟨fun bytes h => ?refused, fun image => ?accepted, ?reset⟩
  case refused =>
    exact ⟨setupRequest_of_length_ne h, (configure_defaultParams _).trans (setupRequest_of_length_ne h)⟩
  case accepted =>
    exact ⟨setupRequest_toList image, (configure_defaultParams _).trans (setupRequest_toList image)⟩
  case reset =>
    have hmem : imageMemory 0 (Vector.replicate 16 (0 : Byte)).toList = [] := imageMemory_replicate_unlistedByte 16 0
    rw [setup, hmem]
    rfl

/-! ## Canonical memories that read alike -/

/-- In canonical memory every address below the bound reads as an unlisted one. -/
theorem memRead_of_wfFrom {m : Memory} {lo : Nat} {a : Nibble} (h : Memory.wfFrom lo m = true) (ha : a.toNat < lo) :
    memRead m a = unlistedByte := by
  induction m generalizing lo with
  | nil => rfl
  | cons c rest ih =>
    obtain ⟨k, v⟩ := c
    obtain ⟨hlo, -, -, hrest⟩ := (wfFrom_cons ..).1 h
    rw [memRead_cons, if_neg (by omega), ih hrest (by omega)]

/-- A memory that reads like one beginning with a cell at `k` cannot have its canonical form begin after `k`. -/
theorem le_of_memRead_cons_eq {lo k : Nat} {v : Byte} {rest m : Memory} (hk : k < 16) (hv : v ≠ unlistedByte)
    (hm : Memory.wfFrom lo m = true) (h : ∀ a, memRead ((k, v) :: rest) a = memRead m a) : lo ≤ k := by
  by_contra hlt
  refine hv ?_
  calc v = memRead ((k, v) :: rest) (BitVec.ofNatLT k hk) := by rw [memRead_cons, BitVec.toNat_ofNatLT, if_pos rfl]
    _ = memRead m (BitVec.ofNatLT k hk) := h _
    _ = unlistedByte := memRead_of_wfFrom hm (by rw [BitVec.toNat_ofNatLT]; omega)

/-- Memories that read alike and begin with cells at one address agree on that cell's byte, and their rests read
alike. -/
theorem memRead_cons_eq_cons {k : Nat} {v v' : Byte} {rest rest' : Memory} (hk : k < 16)
    (hrest : Memory.wfFrom (k + 1) rest = true) (hrest' : Memory.wfFrom (k + 1) rest' = true)
    (h : ∀ a, memRead ((k, v) :: rest) a = memRead ((k, v') :: rest') a) :
    v = v' ∧ ∀ a, memRead rest a = memRead rest' a := by
  simp only [memRead_cons] at h
  refine ⟨by simpa using h (BitVec.ofNatLT k hk), fun a => ?_⟩
  by_cases hka : k = a.toNat
  · rw [memRead_of_wfFrom hrest (by omega), memRead_of_wfFrom hrest' (by omega)]
  · simpa [hka] using h a

/-- Two canonical memories that read alike have the same cells, from any address on. -/
theorem eq_of_memRead_eq {m m' : Memory} {lo : Nat} (hm : Memory.wfFrom lo m = true)
    (hm' : Memory.wfFrom lo m' = true) (h : ∀ a, memRead m a = memRead m' a) : m = m' := by
  induction m generalizing lo m' with
  | nil =>
    cases m' with
    | nil => rfl
    | cons c' rest' =>
      obtain ⟨-, hk', hv', -⟩ := (wfFrom_cons ..).1 hm'
      have := le_of_memRead_cons_eq hk' hv' (wfFrom_nil 16) fun a => (h a).symm
      omega
  | cons c rest ih =>
    obtain ⟨k, v⟩ := c
    obtain ⟨-, hk, hv, hrest⟩ := (wfFrom_cons ..).1 hm
    cases m' with
    | nil =>
      have := le_of_memRead_cons_eq hk hv (wfFrom_nil 16) h
      omega
    | cons c' rest' =>
      obtain ⟨k', v'⟩ := c'
      obtain ⟨-, hk', hv', hrest'⟩ := (wfFrom_cons ..).1 hm'
      have hle : k ≤ k' :=
        le_of_memRead_cons_eq hk' hv' ((wfFrom_cons ..).2 ⟨le_rfl, hk, hv, hrest⟩) fun a => (h a).symm
      have hge : k' ≤ k := le_of_memRead_cons_eq hk hv ((wfFrom_cons ..).2 ⟨le_rfl, hk', hv', hrest'⟩) h
      obtain rfl := le_antisymm hle hge
      obtain ⟨rfl, hreads⟩ := memRead_cons_eq_cons hk hrest hrest' h
      rw [ih hrest hrest' hreads]

/-- Settles O23: the canonical form is that from address 0 on. -/
theorem canonicalMemoriesAreExtensional : Obligations.CanonicalMemoriesAreExtensional := fun _ _ => eq_of_memRead_eq

/-! ## The invariant where a run begins -/

/-- The reset state with any canonical memory meets the invariant: it is running at step 0, so the clauses on the latch
and on steps 1 and 2 ask nothing, IR holds the byte of a NOP, which neither reaches memory nor uses the ALU, and `cw` is
the last word of NOP's row. -/
theorem engineInv_reset_with_mem {m : Memory} (h : m.wf = true) : EngineInv { State.reset with mem := m } :=
  { memory := h
    halt := nofun
    fetchAddress := nofun
    fetched := nofun
    operandAddress := fun _ _ hreach =>
      absurd hreach (show ¬ reachesMemory (opcodeField State.reset.ir) = true by decide)
    operandInB := fun _ halu =>
      absurd halu (show ¬ usesAlu (opcodeField State.reset.ir) = true by decide)
    controlWord := show State.reset.cw =
      cwNumber defaultCwBits (defaultMicrocode (opcodeField State.reset.ir) (State.reset.step - 1)) by decide }

/-- Settles O51: the empty memory is canonical. -/
theorem resetMeetsTheInvariant : Obligations.ResetMeetsTheInvariant := engineInv_reset_with_mem (wfFrom_nil 0)

/-- Settles O52: an image's cells are written in rising order. -/
theorem setupMeetsTheInvariant : Obligations.SetupMeetsTheInvariant := fun image =>
  engineInv_reset_with_mem (wfFrom_imageMemory (by simp))

end Sys2Proof.Machine
end
